-- ==== Sys2Proof/Word.lean ====
section
/-! DEFINITION. The machine's one width (spec/00_scope.md R5 `XLEN`, R6). -/

namespace Sys2Proof

/-- A cell, a register, an operand byte, `pc` and `sp`: 8 bits, read as an unsigned number 0..255
(R6; `pc` and `sp` by R24, R27 and decisions D5, D6, log entry 19). -/
abbrev Byte := BitVec 8

end Sys2Proof
end

