-- ==== Sys2Proof/Config.lean ====
section
/-! DEFINITION. The parameters of the core (spec/00_scope.md R5), as one record that a claim may quantify over. Their default
values are in Decode.lean (the opcode bytes) and Machine/Params.lean. -/

namespace Sys2Proof

/-- `OPC`: the opcode byte of each of the 13 operations (30_encoding.md R73). -/
structure Opc where
  ldi : Byte
  prn : Byte
  add : Byte
  mul : Byte
  cmp : Byte
  push : Byte
  pop : Byte
  call : Byte
  ret : Byte
  jmp : Byte
  jeq : Byte
  jne : Byte
  hlt : Byte
  deriving DecidableEq, Repr

/-- The 13 opcode bytes in the order of R74. -/
def Opc.bytes (o : Opc) : List Byte :=
  [o.ldi, o.prn, o.add, o.mul, o.cmp, o.push, o.pop, o.call, o.ret, o.jmp, o.jeq, o.jne, o.hlt]

/-- R73: "the 13 opcode values are pairwise distinct (the lookup is a function)". -/
abbrev Opc.Injective (o : Opc) : Prop := o.bytes.Nodup

/-- The parameters for which R5 and 93_implementation_defined.md (U5, U9, U12) admit a choice. -/
structure Config where
  /-- `MEM_LEN`: number of memory cells. -/
  memLen : Nat
  /-- `SP_INIT`: value of SP at reset and its upper bound. -/
  spInit : Nat
  /-- `OPC`: the opcode bytes. -/
  opc : Opc
  deriving DecidableEq, Repr

/-- R5: MEM_LEN is a power of two with `64 <= MEM_LEN <= 128`; U9: `SP_INIT <= MEM_LEN`; R73: OPC is injective. -/
abbrev Config.Admissible (c : Config) : Prop :=
  (c.memLen = 64 ∨ c.memLen = 128) ∧ c.spInit ≤ c.memLen ∧ c.opc.Injective

/-- `PC_INIT`: value of PC at reset (R5, R24). -/
def pcInit : Byte := 0#8

end Sys2Proof
end

