-- ==== Sys2Proof/Syntax.lean ====
section
/-! DEFINITION. The 13 instructions (spec/30_encoding.md R74). An operand is the byte that follows the opcode; a register
operand is that whole byte (R76), checked in WellFormed.lean. -/

namespace Sys2Proof

/-- One constructor per row of the dispatch table, in its order. -/
inductive Instr where
  | ldi (opa imm : Byte)
  | prn (opa : Byte)
  | add (opa opb : Byte)
  | mul (opa opb : Byte)
  | cmp (opa opb : Byte)
  | push (opa : Byte)
  | pop (opa : Byte)
  | call (opa : Byte)
  | ret
  | jmp (opa : Byte)
  | jeq (opa : Byte)
  | jne (opa : Byte)
  | hlt
  deriving DecidableEq, Repr

/-- The operation of a dispatch-table row, without operands: what the opcode byte identifies (R70). -/
inductive Op where
  | ldi | prn | add | mul | cmp | push | pop | call | ret | jmp | jeq | jne | hlt
  deriving DecidableEq, Repr

/-- The two operand kinds of R74. -/
inductive OperandKind where
  /-- a register index, checked by R76 -/
  | reg
  /-- an 8-bit immediate, R77 -/
  | imm
  deriving DecidableEq, Repr

/-- The operation an instruction belongs to. -/
def Instr.op : Instr → Op
  | .ldi _ _ => .ldi
  | .prn _ => .prn
  | .add _ _ => .add
  | .mul _ _ => .mul
  | .cmp _ _ => .cmp
  | .push _ => .push
  | .pop _ => .pop
  | .call _ => .call
  | .ret => .ret
  | .jmp _ => .jmp
  | .jeq _ => .jeq
  | .jne _ => .jne
  | .hlt => .hlt

/-- The operand bytes in memory order (R71). -/
def Instr.operands : Instr → List Byte
  | .ldi a v => [a, v]
  | .prn a => [a]
  | .add a b => [a, b]
  | .mul a b => [a, b]
  | .cmp a b => [a, b]
  | .push a => [a]
  | .pop a => [a]
  | .call a => [a]
  | .ret => []
  | .jmp a => [a]
  | .jeq a => [a]
  | .jne a => [a]
  | .hlt => []

/-- The operand bytes of kind `reg`, `opa` before `opb` (R74, R94). -/
def Instr.regOperands : Instr → List Byte
  | .ldi a _ => [a]
  | .prn a => [a]
  | .add a b => [a, b]
  | .mul a b => [a, b]
  | .cmp a b => [a, b]
  | .push a => [a]
  | .pop a => [a]
  | .call a => [a]
  | .ret => []
  | .jmp a => [a]
  | .jeq a => [a]
  | .jne a => [a]
  | .hlt => []

/-- Length in bytes: `1 + n` (R72). -/
def Instr.length (i : Instr) : Nat := 1 + i.operands.length

end Sys2Proof
end

