-- ==== Sys2Proof/WellFormed.lean ====
section
/-! DEFINITION. The one legality check on an instruction (spec/30_encoding.md R76, R79): every register operand is 0..7. -/

namespace Sys2Proof

/-- R76: the whole byte is compared; bits 7:3 are not ignored. -/
def isRegByte (b : Byte) : Bool := decide (b.toNat ≤ 7)

/-- The register operand that R94 reports: the first invalid one, `opa` before `opb`. -/
def Instr.invalidReg? (i : Instr) : Option Byte := i.regOperands.find? (fun b => !isRegByte b)

/-- R79: "There are no illegal operand combinations beyond rule R76". -/
abbrev WellFormed (i : Instr) : Prop := i.regOperands.all isRegByte = true

end Sys2Proof
end

