-- ==== Sys2Proof/Decode.lean ====
section
/-! DEFINITION. The dispatch table (spec/30_encoding.md R74), the decoder (R72, R76, R78; 40_cycle.md R92..R95) and the
encoder. The opcode bytes are a parameter (R73); `Opc.default` holds R74's values. -/

namespace Sys2Proof

/-- The `opcode` column of R74 (decision D1: the spec marks the values as general knowledge; PRESUMED, log entry 2). -/
def Opc.default : Opc where
  ldi := 0x82#8
  prn := 0x47#8
  add := 0xA0#8
  mul := 0xA2#8
  cmp := 0xA7#8
  push := 0x45#8
  pop := 0x46#8
  call := 0x50#8
  ret := 0x11#8
  jmp := 0x54#8
  jeq := 0x55#8
  jne := 0x56#8
  hlt := 0x01#8

/-- One row of the dispatch table: operation, opcode byte, operand kinds in memory order; `n` is their number. -/
structure Row where
  op : Op
  opcode : Byte
  kinds : List OperandKind
  deriving DecidableEq, Repr

/-- R74, row by row. -/
def dispatchTable (o : Opc) : List Row :=
  [⟨.ldi, o.ldi, [.reg, .imm]⟩,
   ⟨.prn, o.prn, [.reg]⟩,
   ⟨.add, o.add, [.reg, .reg]⟩,
   ⟨.mul, o.mul, [.reg, .reg]⟩,
   ⟨.cmp, o.cmp, [.reg, .reg]⟩,
   ⟨.push, o.push, [.reg]⟩,
   ⟨.pop, o.pop, [.reg]⟩,
   ⟨.call, o.call, [.reg]⟩,
   ⟨.ret, o.ret, []⟩,
   ⟨.jmp, o.jmp, [.reg]⟩,
   ⟨.jeq, o.jeq, [.reg]⟩,
   ⟨.jne, o.jne, [.reg]⟩,
   ⟨.hlt, o.hlt, []⟩]

/-- R92: the lookup compares all 8 bits of the opcode byte with each row's value. -/
def lookup (o : Opc) (b : Byte) : Option Row := (dispatchTable o).find? (fun r => r.opcode == b)

/-- The instruction of an operation and its operand bytes; an operand the operation does not have is ignored. -/
def assemble : Op → Byte → Byte → Instr
  | .ldi, a, b => .ldi a b
  | .prn, a, _ => .prn a
  | .add, a, b => .add a b
  | .mul, a, b => .mul a b
  | .cmp, a, b => .cmp a b
  | .push, a, _ => .push a
  | .pop, a, _ => .pop a
  | .call, a, _ => .call a
  | .ret, _, _ => .ret
  | .jmp, a, _ => .jmp a
  | .jeq, a, _ => .jeq a
  | .jne, a, _ => .jne a
  | .hlt, _, _ => .hlt

/-- What a decode of a byte sequence says; every refusal has its name. -/
inductive Decoded where
  /-- an instruction, all its register bytes valid, and the bytes after it -/
  | instr (i : Instr) (rest : List Byte)
  /-- the opcode byte is in no row (R78) -/
  | unrecognized (op : Byte)
  /-- the byte at offset `k` (0 the opcode, 1 and 2 the operands) is needed and there is none -/
  | missing (k : Nat)
  /-- a register byte above 7 (R76, R94) -/
  | invalidRegister (b : Byte)
  deriving DecidableEq, Repr

/-- Decode, total on any bytes, in the order of R90: opcode (action 1), lookup (2), operand bytes (3), register
validation (3b). A missing operand is reported before an invalid register (R191). -/
def decode (o : Opc) : List Byte → Decoded
  | [] => .missing 0
  | b :: rest =>
    match lookup o b with
    | none => .unrecognized b
    | some row =>
      if rest.length < row.kinds.length then .missing (1 + rest.length)
      else
        let i := assemble row.op (rest.getD 0 0) (rest.getD 1 0)
        match i.invalidReg? with
        | some r => .invalidRegister r
        | none => .instr i (rest.drop row.kinds.length)

/-- The opcode byte of an operation (the `opcode` column of R74). -/
def opcodeOf (o : Opc) : Op → Byte
  | .ldi => o.ldi
  | .prn => o.prn
  | .add => o.add
  | .mul => o.mul
  | .cmp => o.cmp
  | .push => o.push
  | .pop => o.pop
  | .call => o.call
  | .ret => o.ret
  | .jmp => o.jmp
  | .jeq => o.jeq
  | .jne => o.jne
  | .hlt => o.hlt

/-- The bytes of an instruction in ascending address order: opcode, `opa`, `opb` (R56, R71). -/
def encode (o : Opc) (i : Instr) : List Byte := opcodeOf o i.op :: i.operands

/-- The longest instruction, in bytes (R70). -/
def maxLength : Nat := 3

/-- The bytes of an instruction given as one number, bit 0 the least significant bit of the first byte, the bits from
`nbits` up zero, padded to the longest instruction. -/
def wordBytes (nbits w : Nat) : List Byte :=
  (List.range maxLength).map fun k => BitVec.ofNat 8 (w % 2 ^ nbits / 256 ^ k)

/-- What the decoder reads from the table's numbering of an instruction's bits. -/
def decodeTableWord (nbits w : Nat) : Option Instr :=
  match decode Opc.default (wordBytes nbits w) with
  | .instr i _ => some i
  | .unrecognized _ => none
  | .missing _ => none
  | .invalidRegister _ => none

end Sys2Proof
end

