-- ==== Sys2Proof/Machine/Params.lean ====
section
/-! DEFINITION. The default parameters (spec/00_scope.md R5; decision D2 for MEM_LEN and SP_INIT, log entry 3). -/

namespace Sys2Proof

/-- `MEM_LEN` = 128, `SP_INIT` = 48, `OPC` = R74. -/
def Config.default : Config where
  memLen := 128
  spInit := 48
  opc := Opc.default

end Sys2Proof
end

