-- ==== Sys2Proof/Machine/State.lean ====
section
/-! DEFINITION. The state of the core (spec/10_state.md R20), the reasons it stops, and reset (R38). -/

namespace Sys2Proof.Machine

/-- Memory (R35): the cells that do not hold the reset value 0, addresses strictly rising. The canonical form is
`Memory.wf` in Ops.lean. -/
abbrev Memory := List Host.Cell

/-- FlagsRegister (R30, R32): three one-bit flags with no packing. -/
structure Flags where
  /-- LESS_THAN, `fl.L` -/
  lt : Bool
  /-- GREATER_THAN, `fl.G` -/
  gt : Bool
  /-- EQUAL, `fl.E` -/
  eq : Bool
  deriving DecidableEq, Repr

/-- The fatal causes with the value each records (60_exceptions.md R180). -/
inductive Cause where
  /-- the offending address (R183) -/
  | addressOutOfRange (addr : Nat)
  /-- the offending operand byte (R184) -/
  | invalidRegister (b : Byte)
  /-- `pc` of the PUSH or CALL (R185) -/
  | stackOverflow (pc : Byte)
  /-- `pc` of the POP or RET (R186) -/
  | stackUnderflow (pc : Byte)
  /-- kept so that the list matches the taxonomy; no definition raises it (R187, D23, log entry 13) -/
  | unsupportedOperation
  deriving DecidableEq, Repr

/-- The run state (R33). -/
inductive RunState where
  /-- LOAD: reset done, loop not started -/
  | load
  /-- RUN: one instruction per step -/
  | running
  /-- HALT_HLT: ended by HLT -/
  | haltHlt
  /-- HALT_UNREC: ended by an unrecognized opcode -/
  | haltUnrec
  /-- FAULT(c): aborted by a fatal condition -/
  | fault (c : Cause)
  deriving DecidableEq, Repr

/-- The diagnostic latch's pair (R34, R95). -/
structure Diag where
  opcode : Byte
  addr : Byte
  deriving DecidableEq, Repr

/-- The complete state (R20), and the machine's parameters. -/
structure State where
  /-- the parameters of this machine (R5), changed by no step; the model's own field (log entry 1) -/
  cfg : Config
  /-- general registers R0..R7 (R21) -/
  regs : Vector Byte 8
  /-- stack pointer (R27) -/
  sp : Byte
  /-- program counter (R24) -/
  pc : Byte
  /-- flags (R30) -/
  fl : Flags
  /-- memory (R35) -/
  mem : Memory
  /-- run state (R33) -/
  run : RunState
  /-- values emitted by PRN, oldest first (R34) -/
  out : List Byte
  /-- diagnostic of an unrecognized opcode (R34) -/
  diag : Option Diag
  deriving DecidableEq, Repr

/-- Why the machine stops with a fault. -/
inductive Fault where
  /-- Raised by `step` alone, in a state whose run was aborted: `run = FAULT(c)` is terminal and the core has no step in it
  (R33, R98). Safe: the hardware makes no step either. The condition `c` itself was entered as a next state (R193). -/
  | aborted (c : Cause)
  deriving DecidableEq, Repr

/-- Why a step or a host action has no meaning. -/
inductive Refusal where
  /-- Raised by `exec` for an instruction with no meaning yet (none in this model). Safe: the model stops. -/
  | notModelled (mnemonic : String)
  /-- Raised by `step` in LOAD: the loop is not started (R33, R98). Safe. -/
  | notStarted
  /-- Raised by `step` in HALT_HLT, a terminal state (R163, D11). Safe. -/
  | haltedByHlt
  /-- Raised by `step` in HALT_UNREC, a terminal state (R33, D11). Safe. -/
  | haltedByUnrecognized
  /-- Raised by `load` and `start` outside LOAD: "has no meaning in this spec" (40_cycle.md R101, D11). Safe. -/
  | hostActionOutsideLoad
  /-- Raised by `load` at an address outside memory: refused, the launch does not happen (20_memory.md R65, D24). Safe. -/
  | loadOutOfRange (addr : Nat)
  deriving DecidableEq, Repr

/-- The reset state of a machine with parameters `c` (R38, R210). -/
def State.resetWith (c : Config) : State where
  cfg := c
  regs := Vector.replicate 8 0#8
  sp := BitVec.ofNat 8 c.spInit
  pc := pcInit
  fl := ⟨false, false, false⟩
  mem := []
  run := .load
  out := []
  diag := none

/-- The machine right after reset. -/
def State.reset : State := State.resetWith Config.default

end Sys2Proof.Machine
end

