-- ==== Sys2Proof/Machine/Ops.lean ====
section
/-! DEFINITION. The named operations over memory, registers and the run state: memory (spec/20_memory.md R52, R53), register
cells, the program counter, the output (41_ldi_prn.md R111), the stack (43_stack.md R140), taking a fault (60_exceptions.md
R193), the unrecognized-opcode path (40_cycle.md R95) and the commit of an instruction (R97). There is no return from a
fault (R195): only reset goes on (Boundary.lean). -/

namespace Sys2Proof.Machine

/-- What a cell that memory does not list reads as: the reset contents, zero (R35, R38). -/
def unlistedByte : Byte := 0#8

/-- The byte in cell `a`. -/
def Memory.read : Memory → Nat → Byte
  | [], _ => unlistedByte
  | (b, w) :: rest, a => if a = b then w else Memory.read rest a

/-- Put `v` in front, unless it is what an unlisted cell reads as. -/
def Memory.listed (a : Nat) (v : Byte) (rest : Memory) : Memory :=
  if v = unlistedByte then rest else (a, v) :: rest

/-- Cell `a` becomes `v`, every other cell stays; the canonical form is kept. -/
def Memory.write : Memory → Nat → Byte → Memory
  | [], a, v => Memory.listed a v []
  | (b, w) :: rest, a, v =>
    if a < b then Memory.listed a v ((b, w) :: rest)
    else if a = b then Memory.listed a v rest
    else (b, w) :: Memory.write rest a v

/-- Canonical from address `lo` up: addresses strictly rising, no entry equal to what an unlisted cell reads as. -/
def Memory.wfFrom : Nat → Memory → Bool
  | _, [] => true
  | lo, (a, v) :: rest => decide (lo ≤ a) && decide (v ≠ unlistedByte) && Memory.wfFrom (a + 1) rest

/-- The canonical form of memory. -/
def Memory.wf (m : Memory) : Bool := Memory.wfFrom 0 m

/-- Every listed cell exists: its address is below `n` (R50). -/
def Memory.below (n : Nat) (m : Memory) : Bool := m.all fun c => decide (c.1 < n)

/-- Replace the memory. -/
def State.setMem (s : State) (m : Memory) : State := { s with mem := m }

/-- `MemRead(addr, 1)`, R52. -/
def memRead (addr : Nat) (s : State) : Except Cause Byte :=
  if addr < s.cfg.memLen then .ok (s.mem.read addr) else .error (.addressOutOfRange addr)

/-- `MemWrite(addr, 1, v)`, R53. -/
def memWrite (addr : Nat) (v : Byte) (s : State) : Except Cause State :=
  if addr < s.cfg.memLen then .ok (s.setMem (s.mem.write addr v)) else .error (.addressOutOfRange addr)

/-- `x[r]`. -/
def State.reg (s : State) (r : Fin 8) : Byte := s.regs[r]

/-- `x[r] <- v`. -/
def State.setReg (s : State) (r : Fin 8) (v : Byte) : State := { s with regs := s.regs.set r v }

/-- `pc <- t`. -/
def State.setPc (s : State) (t : Byte) : State := { s with pc := t }

/-- The sequential next PC: `pc <- pc + n`, `n` the instruction's length (R25; log entry 8 for sums past 255). -/
def State.advance (s : State) (n : Nat) : State := s.setPc (s.pc + BitVec.ofNat 8 n)

/-- `sp <- v`. -/
def State.setSp (s : State) (v : Byte) : State := { s with sp := v }

/-- All three flags are written together (R30). -/
def State.setFlags (s : State) (f : Flags) : State := { s with fl := f }

/-- `run <- r`. -/
def State.setRun (s : State) (r : RunState) : State := { s with run := r }

/-- `Emit(v)`: append to the output, always succeeds (R111, D25, log entry 12). -/
def State.emit (s : State) (v : Byte) : State := { s with out := s.out ++ [v] }

/-- TAKING A FAULT (R193): `run <- FAULT(c, info)`, every other element unchanged. -/
def State.raise (s : State) (c : Cause) : State := s.setRun (.fault c)

/-- The unrecognized-opcode path (R95): `diag <- (op, pc)`, `run <- HALT_UNREC`, nothing else changes. -/
def State.unrecognized (s : State) (op : Byte) : State :=
  { s with diag := some ⟨op, s.pc⟩, run := .haltUnrec }

/-- R97, R193: an instruction is all or nothing; it commits its new state, or the fault it raised is taken in the state
before it. -/
def commit (s : State) : Except Cause State → Host.Outcome State Fault Refusal
  | .ok t => .next t
  | .error c => .next (s.raise c)

/-- The address a push stores to: the new SP (R54, R141). -/
def pushAddr (s : State) : Nat := (s.sp - 1#8).toNat

/-- The stack push of PUSH and CALL (R140): PushCheck, `sp <- sp - 1`, store `v` at the new SP. -/
def push (v : Byte) (s : State) : Except Cause State :=
  if s.sp = 0#8 then .error (.stackOverflow s.pc)
  else memWrite (pushAddr s) v (s.setSp (s.sp - 1#8))

/-- The stack pop of POP and RET (R140): PopCheck, the byte at the old SP, `sp <- sp + 1`. -/
def pop (s : State) : Except Cause (Byte × State) :=
  if s.sp.toNat = s.cfg.spInit then .error (.stackUnderflow s.pc)
  else do
    let v ← memRead s.sp.toNat s
    return (v, s.setSp (s.sp + 1#8))

/-- The numeric code of a cause (R180, D22). -/
def causeCode : Cause → Nat
  | .addressOutOfRange _ => 1
  | .invalidRegister _ => 2
  | .stackOverflow _ => 3
  | .stackUnderflow _ => 4
  | .unsupportedOperation => 5

end Sys2Proof.Machine
end

