-- ==== Sys2Proof/Machine/Flags.lean ====
section
/-! DEFINITION. The flag computation (spec/10_state.md R30; 42_alu.md R126) and the flags view (R31, 40_cycle.md R100). CMP
computes the flags and nothing else does. -/

namespace Sys2Proof.Machine

/-- `set_from_comparison(a, b)`: exactly one flag set, the other two cleared, by the unsigned order (R30, R126, D4). -/
def setFromComparison (a b : Byte) : Flags :=
  if a.toNat < b.toNat then ⟨true, false, false⟩
  else if a.toNat > b.toNat then ⟨false, true, false⟩
  else ⟨false, false, true⟩

/-- `is_less`. -/
def isLess (s : State) : Bool := s.fl.lt

/-- `is_greater`. -/
def isGreater (s : State) : Bool := s.fl.gt

/-- `is_equal`; the one flag an instruction reads (JEQ, JNE). -/
def isEqual (s : State) : Bool := s.fl.eq

end Sys2Proof.Machine
end

