-- ==== Sys2Proof/Machine/Operands.lean ====
section
/-! DEFINITION. The operand forms: a register operand (spec/30_encoding.md R76; the access contract of 10_state.md R23). The
other form, the immediate of LDI (R77), is the operand byte itself. -/

namespace Sys2Proof.Machine

/-- `Reg(b)`, R76: the register index of an operand byte, or InvalidRegister. -/
def regIndex (b : Byte) : Except Cause (Fin 8) :=
  if h : b.toNat < 8 then .ok ⟨b.toNat, h⟩ else .error (.invalidRegister b)

/-- R23 `get`: the value of the register an operand byte names. -/
def readReg (b : Byte) (s : State) : Except Cause Byte := do
  let r ← regIndex b
  return s.reg r

/-- R23 `set`: write the register an operand byte names. -/
def writeReg (b : Byte) (v : Byte) (s : State) : Except Cause State := do
  let r ← regIndex b
  return s.setReg r v

end Sys2Proof.Machine
end

