-- ==== Sys2Proof/Machine/Alu.lean ====
section
/-! DEFINITION. The ALU (spec/42_alu.md R120..R123) and its instructions ADD, MUL, CMP (R124..R126). -/

namespace Sys2Proof.Machine

/-- The operation select: the closed set of R120 (so UnsupportedOperation cannot arise, R122). -/
inductive AluOp where
  | add | sub | mul | cmp
  deriving DecidableEq, Repr

/-- R121: reduce an exact integer result modulo 256 (decision D3). -/
def wrap (z : Int) : Byte := BitVec.ofInt 8 z

/-- R124: the exact sum, wrapped. -/
def aluAdd (a b : Byte) : Byte := wrap ((a.toNat : Int) + b.toNat)

/-- R123: the exact difference, wrapped. -/
def aluSub (a b : Byte) : Byte := wrap ((a.toNat : Int) - b.toNat)

/-- R125: the exact product, wrapped. -/
def aluMul (a b : Byte) : Byte := wrap ((a.toNat : Int) * b.toNat)

/-- The ALU on two register indices (R120): a new value for the first register, or all three flags. SUB has no encoding
(R123, D13): no instruction selects it. -/
def alu (op : AluOp) (a b : Fin 8) (s : State) : State :=
  match op with
  | .add => s.setReg a (aluAdd (s.reg a) (s.reg b))
  | .sub => s.setReg a (aluSub (s.reg a) (s.reg b))
  | .mul => s.setReg a (aluMul (s.reg a) (s.reg b))
  | .cmp => s.setFlags (setFromComparison (s.reg a) (s.reg b))

/-- The shared body of ADD, MUL and CMP: check `opa`, then `opb` (R94), run the ALU, `pc <- pc + 3`. -/
def aluInstr (op : AluOp) (opa opb : Byte) (s : State) : Except Cause State := do
  let a ← regIndex opa
  let b ← regIndex opb
  return (alu op a b s).advance 3

/-- ADD, R124. -/
def execAdd (opa opb : Byte) (s : State) : Host.Outcome State Fault Refusal :=
  commit s (aluInstr .add opa opb s)

/-- MUL, R125. -/
def execMul (opa opb : Byte) (s : State) : Host.Outcome State Fault Refusal :=
  commit s (aluInstr .mul opa opb s)

/-- CMP, R126. -/
def execCmp (opa opb : Byte) (s : State) : Host.Outcome State Fault Refusal :=
  commit s (aluInstr .cmp opa opb s)

end Sys2Proof.Machine
end

