-- ==== Sys2Proof/Machine/Control.lean ====
section
/-! DEFINITION. JMP, JEQ, JNE, HLT (spec/44_control.md R160..R163). The register operand is checked whether or not the branch
is taken (30_encoding.md R76). -/

namespace Sys2Proof.Machine

/-- The shared body of the jumps: to the register's value if `taken`, else to the next instruction. -/
def jumpIf (taken : Bool) (opa : Byte) (s : State) : Except Cause State := do
  let target ← readReg opa s
  return if taken then s.setPc target else s.advance 2

/-- JMP, R160. -/
def execJmp (opa : Byte) (s : State) : Host.Outcome State Fault Refusal :=
  commit s (jumpIf true opa s)

/-- JEQ, R161. -/
def execJeq (opa : Byte) (s : State) : Host.Outcome State Fault Refusal :=
  commit s (jumpIf (isEqual s) opa s)

/-- JNE, R162. -/
def execJne (opa : Byte) (s : State) : Host.Outcome State Fault Refusal :=
  commit s (jumpIf (!isEqual s) opa s)

/-- HLT, R163: `pc <- 0`, `run <- HALT_HLT`. -/
def execHlt (s : State) : Host.Outcome State Fault Refusal :=
  commit s (.ok ((s.setPc 0#8).setRun .haltHlt))

end Sys2Proof.Machine
end

