-- ==== Sys2Proof/Machine/LoadPrint.lean ====
section
/-! DEFINITION. LDI and PRN (spec/41_ldi_prn.md R110, R111). -/

namespace Sys2Proof.Machine

/-- LDI, R110: `x[a] <- imm`, `pc <- pc + 3`. -/
def execLdi (opa imm : Byte) (s : State) : Host.Outcome State Fault Refusal :=
  commit s do
    let s1 ← writeReg opa imm s
    return s1.advance 3

/-- PRN, R111: `Emit(x[a])`, `pc <- pc + 2`. -/
def execPrn (opa : Byte) (s : State) : Host.Outcome State Fault Refusal :=
  commit s do
    let v ← readReg opa s
    return (s.emit v).advance 2

end Sys2Proof.Machine
end

