-- ==== Sys2Proof/Machine/Stack.lean ====
section
/-! DEFINITION. PUSH, POP, CALL, RET (spec/43_stack.md R141..R144). The register check stands before the stack check
(60_exceptions.md R191). -/

namespace Sys2Proof.Machine

/-- The return address CALL saves: the address after its operand byte (R143). -/
def returnAddr (s : State) : Byte := s.pc + 2#8

/-- PUSH, R141. -/
def execPush (opa : Byte) (s : State) : Host.Outcome State Fault Refusal :=
  commit s do
    let v ← readReg opa s
    let s1 ← push v s
    return s1.advance 2

/-- POP, R142. -/
def execPop (opa : Byte) (s : State) : Host.Outcome State Fault Refusal :=
  commit s do
    let a ← regIndex opa
    let (v, s1) ← pop s
    return (s1.setReg a v).advance 2

/-- CALL, R143: the target is read before anything is written. -/
def execCall (opa : Byte) (s : State) : Host.Outcome State Fault Refusal :=
  commit s do
    let target ← readReg opa s
    let s1 ← push (returnAddr s) s
    return s1.setPc target

/-- RET, R144. -/
def execRet (s : State) : Host.Outcome State Fault Refusal :=
  commit s do
    let (target, s1) ← pop s
    return s1.setPc target

end Sys2Proof.Machine
end

