-- ==== Sys2Proof/Machine/Fetch.lean ====
section
/-! DEFINITION. Fetching an instruction's bytes (spec/40_cycle.md R91, R93) and placing them. -/

namespace Sys2Proof.Machine

/-- The bytes at the existing addresses among `a`, `a + 1`, ..., `a + n - 1`; nothing is reduced modulo anything (R93). -/
def bytesFrom (memLen : Nat) (m : Memory) : Nat → Nat → List Byte
  | _, 0 => []
  | a, n + 1 => if a < memLen then m.read a :: bytesFrom memLen m (a + 1) n else []

/-- The bytes an instruction at `pc` could have. Reads have no side effect (R52), so looking at a byte that the
instruction does not fetch shows nowhere (log entry 14). -/
def fetchBytes (s : State) : List Byte := bytesFrom s.cfg.memLen s.mem s.pc.toNat maxLength

/-- Actions 1 to 3b of the cycle: fetch and decode at `pc`. -/
def fetchDecode (s : State) : Decoded := decode s.cfg.opc (fetchBytes s)

/-- A byte the cycle needs and memory does not have, at offset `k` from `pc`: an access out of range at its address
(R91, R93). -/
def missingByte (k : Nat) (s : State) : State := s.raise (.addressOutOfRange (s.pc.toNat + k))

/-- A register byte that fails validation, action 3b (R94). -/
def invalidOperand (b : Byte) (s : State) : State := s.raise (.invalidRegister b)

/-- Store a sequence of bytes at consecutive addresses, those that exist. -/
def placeBytes (memLen : Nat) : List Byte → Nat → Memory → Memory
  | [], _, m => m
  | b :: rest, a, m => placeBytes memLen rest (a + 1) (if a < memLen then m.write a b else m)

end Sys2Proof.Machine
end

