-- ==== Sys2Proof/Machine/Step.lean ====
section
/-! DEFINITION. The one transition of the core (spec/40_cycle.md R90, R98). -/

namespace Sys2Proof.Machine

/-- One instruction cycle, enabled only when `run = RUN` (R90). In every other run state the core has no step (R98):
the model stops by name (log entry 6). -/
def step (s : State) : Host.Outcome State Fault Refusal :=
  match s.run with
  | .load => .refused .notStarted
  | .haltHlt => .refused .haltedByHlt
  | .haltUnrec => .refused .haltedByUnrecognized
  | .fault c => .fault (.aborted c)
  | .running =>
    match fetchDecode s with
    | .instr i _ => exec i s
    | .unrecognized op => .next (s.unrecognized op)
    | .missing k => .next (missingByte k s)
    | .invalidRegister b => .next (invalidOperand b s)

/-- `s` with one instruction stored at `pc` and the run started, so that the very next `step` runs it: it stands for the
host's load and start (log entry 7). -/
def State.withFetchWord (s : State) (nbits w : Nat) : State :=
  { s with mem := placeBytes s.cfg.memLen (wordBytes nbits w) s.pc.toNat s.mem, run := .running }

end Sys2Proof.Machine
end

