-- ==== Sys2Proof/Machine/Boundary.lean ====
section
/-! DEFINITION. The host's side of the block's boundary (spec/40_cycle.md R100, R101): reset, load, start, the launch
sequence (70_reset_and_hazards.md R213), and the read-only views. -/

namespace Sys2Proof.Machine

/-- `reset` (R210, R211): from any state, every element to its reset value, memory included; the parameters stay. -/
def hostReset (s : State) : State := State.resetWith s.cfg

/-- `load(addr, byte)` (R65, R215): only in LOAD; outside memory it is refused and the launch does not happen. -/
def hostLoad (addr : Nat) (b : Byte) (s : State) : Host.Outcome State Fault Refusal :=
  if s.run = .load then
    match memWrite addr b s with
    | .ok t => .next t
    | .error _ => .refused (.loadOutOfRange addr)
  else .refused .hostActionOutsideLoad

/-- `start` (R217): only in LOAD, `run <- RUN`, nothing else. -/
def hostStart (s : State) : Host.Outcome State Fault Refusal :=
  if s.run = .load then .next (s.setRun .running) else .refused .hostActionOutsideLoad

/-- `load(a, image[0])`, `load(a + 1, image[1])`, and so on, ending at the first refusal (R215). -/
def hostLoadFrom : Nat → List Byte → State → Host.Outcome State Fault Refusal
  | _, [], s => .next s
  | a, b :: rest, s =>
    match hostLoad a b s with
    | .next t => hostLoadFrom (a + 1) rest t
    | .fault r => .fault r
    | .refused r => .refused r

/-- The launch sequence (R213): reset, the image at consecutive addresses from 0, start. -/
def launch (image : List Byte) (s : State) : Host.Outcome State Fault Refusal :=
  match hostLoadFrom 0 image (hostReset s) with
  | .next t => hostStart t
  | .fault r => .fault r
  | .refused r => .refused r

/-- What a view of memory shows at an address: nothing where there is no cell (R198, D21). -/
def cellView (addr : Nat) (s : State) : Option Byte :=
  if addr < s.cfg.memLen then some (s.mem.read addr) else none

/-- The diagnostic trace (R198): PC, the next three memory bytes, the eight registers. -/
structure Trace where
  pc : Byte
  bytes : List (Option Byte)
  regs : Vector Byte 8
  deriving DecidableEq, Repr

/-- The trace of a state: a read-only view that never faults (R198, D21). -/
def trace (s : State) : Trace where
  pc := s.pc
  bytes := [cellView s.pc.toNat s, cellView (s.pc.toNat + 1) s, cellView (s.pc.toNat + 2) s]
  regs := s.regs

end Sys2Proof.Machine
end

