-- ==== Sys2Proof/Machine/Loader.lean ====
section
/-! DEFINITION. The on-disk program text (spec/70_reset_and_hazards.md R216, 30_encoding.md R82). The loader is out of the
core (00_scope.md R4); this is only its conversion of records to the bytes that `launch` loads. -/

namespace Sys2Proof.Machine

/-- What one record is. -/
inductive Record where
  /-- empty, whitespace or a comment -/
  | skipped
  /-- one byte -/
  | byte (b : Byte)
  /-- "Malformed program record" (60_exceptions.md R188) -/
  | malformed
  deriving DecidableEq, Repr

/-- The value of binary digits, the first the most significant; none where a character is no digit. -/
def binaryValue : Nat → List Char → Option Nat
  | v, [] => some v
  | v, '0' :: rest => binaryValue (2 * v) rest
  | v, '1' :: rest => binaryValue (2 * v + 1) rest
  | _, _ :: _ => none

/-- One line, without its line end (R216; log entry 16 for what counts as whitespace). -/
def readRecord (line : List Char) : Record :=
  if line.all Char.isWhitespace || line.head? == some '#' then .skipped
  else if line.length = 8 then
    match binaryValue 0 line with
    | some v => .byte (BitVec.ofNat 8 v)
    | none => .malformed
  else .malformed

/-- The image of a program text, in file order; none if any record is malformed (R188, R215). -/
def readProgram : List (List Char) → Option (List Byte)
  | [] => some []
  | line :: rest =>
    match readRecord line with
    | .skipped => readProgram rest
    | .byte b => (readProgram rest).map (b :: ·)
    | .malformed => none

end Sys2Proof.Machine
end

