-- ==== Sys2Proof/Machine/Cycle.lean ====
section
/-! DEFINITION. The cycle of spec/40_cycle.md R90 action by action, one memory read after another, as the spec writes it. `step`
runs the same cycle through the decoder on a byte sequence; that the two agree is an obligation. -/

namespace Sys2Proof.Machine

/-- Action 3: the operand bytes, `n` of them, at `pc + 1` and `pc + 2` (R93). -/
def fetchOperands (n : Nat) (s : State) : Except Cause (Byte × Byte) :=
  match n with
  | 0 => return (0, 0)
  | 1 => do
    let opa ← memRead (s.pc.toNat + 1) s
    return (opa, 0)
  | _ => do
    let opa ← memRead (s.pc.toNat + 1) s
    let opb ← memRead (s.pc.toNat + 2) s
    return (opa, opb)

/-- Action 3b: `Reg(operand)` for each operand of kind `reg`, `opa` first (R94). -/
def validate : List OperandKind → List Byte → Except Cause Unit
  | .reg :: ks, b :: bs => do
    let _ ← regIndex b
    validate ks bs
  | .imm :: ks, _ :: bs => validate ks bs
  | _, _ => return ()

/-- R90, actions 1 to 5, for a state with `run = RUN`. -/
def cycle (s : State) : Host.Outcome State Fault Refusal :=
  match memRead s.pc.toNat s with
  | .error c => .next (s.raise c)
  | .ok op =>
    match lookup s.cfg.opc op with
    | none => .next (s.unrecognized op)
    | some row =>
      match fetchOperands row.kinds.length s with
      | .error c => .next (s.raise c)
      | .ok (opa, opb) =>
        match validate row.kinds [opa, opb] with
        | .error c => .next (s.raise c)
        | .ok () => exec (assemble row.op opa opb) s

end Sys2Proof.Machine
end

