-- ==== Sys2Proof/Safety.lean ====
section
/-! DEFINITION. What claims are stated in: a safe run, the invariant of the machine, and which instruction may write what. -/

namespace Sys2Proof.Machine

/-- R33, R193: a run has gone wrong when it ended in FAULT. -/
def State.Safe (s : State) : Prop := ∀ c, s.run ≠ .fault c

/-- R33: the three kinds of end. -/
def RunState.Terminal (r : RunState) : Prop := r = .haltHlt ∨ r = .haltUnrec ∨ ∃ c, r = .fault c

/-- R30: the four combinations the flags take. -/
def Flags.Legal (f : Flags) : Prop :=
  f = ⟨false, false, false⟩ ∨ f = ⟨true, false, false⟩ ∨ f = ⟨false, true, false⟩ ∨ f = ⟨false, false, true⟩

/-- R30: "Exactly one of {LESS_THAN, GREATER_THAN, EQUAL} is true". -/
def Flags.ExactlyOne (f : Flags) : Prop :=
  f = ⟨true, false, false⟩ ∨ f = ⟨false, true, false⟩ ∨ f = ⟨false, false, true⟩

/-- What a fault's recorded value says of the state it left (R180, R193). -/
def Cause.Fits (c : Cause) (s : State) : Prop :=
  match c with
  | .addressOutOfRange a => s.cfg.memLen ≤ a ∧ s.pc.toNat ≤ a ∧ a ≤ s.pc.toNat + 2
  | .invalidRegister b => 8 ≤ b.toNat
  | .stackOverflow p => p = s.pc ∧ s.sp = 0#8
  | .stackUnderflow p => p = s.pc ∧ s.sp.toNat = s.cfg.spInit
  | .unsupportedOperation => False

/-- What the run state says of the other elements: LOAD is the reset state but for memory (R38, R213); the diagnostic is
set exactly in HALT_UNREC and names `pc` (R34, R95); HALT_HLT has `pc = 0` (R163). -/
def State.RunFits (s : State) : Prop :=
  match s.run with
  | .load => s = { State.resetWith s.cfg with mem := s.mem }
  | .running => s.diag = none
  | .haltHlt => s.diag = none ∧ s.pc = 0
  | .haltUnrec => ∃ op, s.diag = some ⟨op, s.pc⟩ ∧ lookup s.cfg.opc op = none
  | .fault c => s.diag = none ∧ c.Fits s

/-- The invariant of the machine: admissible parameters (R5), SP in `0..SP_INIT` (R28), legal flags (R30), memory canonical
and inside the address space (R50), and a run state that fits. -/
structure State.Inv (s : State) : Prop where
  cfg : s.cfg.Admissible
  sp : s.sp.toNat ≤ s.cfg.spInit
  flags : s.fl.Legal
  memWf : s.mem.wf = true
  memBelow : s.mem.below s.cfg.memLen = true
  runFits : s.RunFits

/-- R22, column "writes": the operand byte that names the one register an instruction may write. -/
def destReg? : Instr → Option Byte
  | .ldi a _ => some a
  | .prn _ => none
  | .add a _ => some a
  | .mul a _ => some a
  | .cmp _ _ => none
  | .push _ => none
  | .pop a => some a
  | .call _ => none
  | .ret => none
  | .jmp _ => none
  | .jeq _ => none
  | .jne _ => none
  | .hlt => none

/-- R54: the instructions that write memory. -/
def storesToStack : Instr → Bool
  | .push _ => true
  | .call _ => true
  | .ldi _ _ => false
  | .prn _ => false
  | .add _ _ => false
  | .mul _ _ => false
  | .cmp _ _ => false
  | .pop _ => false
  | .ret => false
  | .jmp _ => false
  | .jeq _ => false
  | .jne _ => false
  | .hlt => false

/-- R54: the instructions that read memory as data. -/
def loadsFromStack : Instr → Bool
  | .pop _ => true
  | .ret => true
  | .ldi _ _ => false
  | .prn _ => false
  | .add _ _ => false
  | .mul _ _ => false
  | .cmp _ _ => false
  | .push _ => false
  | .call _ => false
  | .jmp _ => false
  | .jeq _ => false
  | .jne _ => false
  | .hlt => false

/-- R25: the instructions whose next PC is `pc` plus their length. -/
def isSequential : Instr → Bool
  | .ldi _ _ => true
  | .prn _ => true
  | .add _ _ => true
  | .mul _ _ => true
  | .cmp _ _ => true
  | .push _ => true
  | .pop _ => true
  | .call _ => false
  | .ret => false
  | .jmp _ => false
  | .jeq _ => false
  | .jne _ => false
  | .hlt => false

/-- The byte of memory a claim reads. -/
def State.byte (s : State) (a : Nat) : Byte := s.mem.read a

/-- The bytes of `i` stand in existing cells from `pc` up (R71). -/
def State.InstrAt (s : State) (i : Instr) : Prop :=
  ∀ k b, (encode s.cfg.opc i)[k]? = some b → s.pc.toNat + k < s.cfg.memLen ∧ s.byte (s.pc.toNat + k) = b

/-- Two states that agree in everything but the flags. -/
def State.SameButFlags (s t : State) : Prop := s.setFlags t.fl = t

end Sys2Proof.Machine
end

