-- ==== Sys2Proof/Certificates/Slice0/Obligations.lean ====
section
/-! DEFINITION. The statements for the provers. Each docstring names the rules of spec/ it rests on. -/

open Sys2Proof Sys2Proof.Machine

/-! ### Encoding -/

/-- R70..R74: for every injective choice of opcode bytes, decoding the encoding of a well-formed instruction gives it back,
with the bytes after it. -/
def Obligations.DecodeOfEncode : Prop :=
  ∀ (o : Opc) (i : Instr) (rest : List Byte), o.Injective → WellFormed i →
    decode o (encode o i ++ rest) = .instr i rest

/-- R72, R76: whatever the decoder accepts is the encoding of a well-formed instruction: no bit of the word is dropped and no
register byte above 7 passes. -/
def Obligations.DecodedBytesAreTheEncoding : Prop :=
  ∀ (o : Opc) (bytes rest : List Byte) (i : Instr), decode o bytes = .instr i rest →
    WellFormed i ∧ bytes = encode o i ++ rest

/-- R76, R94: an instruction with a register byte above 7 is refused with the first such byte, `opa` before `opb`. -/
def Obligations.DecodeReportsFirstInvalidRegister : Prop :=
  ∀ (o : Opc) (i : Instr) (rest : List Byte) (b : Byte), o.Injective → i.invalidReg? = some b →
    decode o (encode o i ++ rest) = .invalidRegister b ∧ 8 ≤ b.toNat ∧
    ∃ before after, i.regOperands = before ++ b :: after ∧ ∀ r ∈ before, r.toNat ≤ 7

/-- R78 (R72, R73): for every OPC, exactly the bytes outside the 13 are unrecognized, whatever bytes follow, and for every
injective OPC they are 243 of the 256. The last clause, that 0x00 is one of them, is about the default opcode values alone, which
are PRESUMED (log entry 2, decision D1). -/
def Obligations.UnrecognizedOpcodesAre243 : Prop :=
  (∀ (o : Opc) (b : Byte) (rest : List Byte), decode o (b :: rest) = .unrecognized b ↔ b ∉ o.bytes) ∧
  (∀ o : Opc, o.Injective →
    ((List.range 256).filter fun n => (lookup o (BitVec.ofNat 8 n)).isNone).length = 243) ∧
  lookup Opc.default 0#8 = none

/-- R74 with its default opcode values, which are PRESUMED (log entry 2, decision D1) and which the spec's source does not give:
words written out from the table decode to their instructions (a sanity statement). -/
def Obligations.TableWordsDecode : Prop :=
  decode Opc.default [0b10000010#8, 3#8, 42#8] = .instr (.ldi 3 42) [] ∧
  decode Opc.default [0b10100000#8, 0#8, 1#8] = .instr (.add 0 1) [] ∧
  decode Opc.default [0b01010000#8, 1#8] = .instr (.call 1) [] ∧
  decode Opc.default [0b01010101#8, 4#8] = .instr (.jeq 4) [] ∧
  decode Opc.default [0b00010001#8] = .instr .ret []

/-! ### Reset and launch -/

/-- R38, R210, R211: from any state, `reset` puts every element at its reset value. The model's own clauses: `reset` keeps the
parameters (log entries 1 and 20, DEDUCED), and with the default parameters (log entry 3, decision D2: SP 48, 128 cells) the
result is the machine's reset state. -/
def Obligations.ResetValues : Prop :=
  (∀ s : State,
    (∀ r, (hostReset s).reg r = 0) ∧ (hostReset s).sp = BitVec.ofNat 8 s.cfg.spInit ∧ (hostReset s).pc = 0 ∧
    (hostReset s).fl = ⟨false, false, false⟩ ∧ (∀ a, (hostReset s).byte a = 0) ∧ (hostReset s).run = .load ∧
    (hostReset s).out = [] ∧ (hostReset s).diag = none ∧ (hostReset s).cfg = s.cfg) ∧
  (∀ s : State, s.cfg = Config.default → hostReset s = State.reset) ∧
  State.reset.sp = 48 ∧ State.reset.cfg.memLen = 128

/-- R213: the launch (reset, load from 0, start) gives the reset state with the image in memory from 0, all other cells 0, and
`run = RUN`, and the first opcode fetched is the byte at address 0. -/
def Obligations.LaunchState : Prop :=
  ∀ (image : List Byte) (s : State), image.length ≤ s.cfg.memLen →
    ∃ t, launch image s = .next t ∧ (∀ a, t.byte a = image.getD a 0) ∧
      t = { State.resetWith s.cfg with mem := t.mem, run := .running } ∧
      (0 < s.cfg.memLen → t.pc = 0 ∧ (fetchBytes t).head? = some (t.byte 0))

/-- R215, D24: an image longer than memory is refused at the first address outside it. -/
def Obligations.ImageTooLongIsRefused : Prop :=
  ∀ (image : List Byte) (s : State), s.cfg.memLen < image.length →
    launch image s = .refused (.loadOutOfRange s.cfg.memLen)

/-- R65, R217, R101 (decisions D11, D15; the refusals by name are log entry 15): `load` and `start` act only in LOAD; `load`
stores one byte and changes nothing else, or is refused outside memory; `start` changes `run` alone. -/
def Obligations.HostActionsOnlyInLoad : Prop :=
  ∀ (s : State) (a : Nat) (b : Byte),
    (s.run ≠ .load → hostLoad a b s = .refused .hostActionOutsideLoad ∧
      hostStart s = .refused .hostActionOutsideLoad) ∧
    (s.run = .load → hostStart s = .next { s with run := .running }) ∧
    (s.run = .load → s.cfg.memLen ≤ a → hostLoad a b s = .refused (.loadOutOfRange a)) ∧
    (s.run = .load → s.mem.wf = true → a < s.cfg.memLen → ∃ t, hostLoad a b s = .next t ∧
      t = { s with mem := t.mem } ∧ ∀ q, t.byte q = if q = a then b else s.byte q)

/-! ### The invariant -/

/-- R5, R28, R30, R38: the reset state of every admissible machine meets the invariant, and the default machine (log entries 2, 3)
is one. -/
def Obligations.ResetMeetsInvariant : Prop :=
  Config.default.Admissible ∧ ∀ c : Config, c.Admissible → (State.resetWith c).Inv

/-- R28, R30, R33, R34, R50, R95, R163, R180: from EVERY state that meets the invariant (admissible parameters, SP in
0..SP_INIT, legal flags, canonical memory inside the address space, diagnostic and fault record that fit the run state), a step
gives a state that meets it. The canonical form of memory is the model's own (log entry 17), what the fault record holds rests on
decisions D8 and D9, and `pc` in HALT_UNREC on D10. -/
def Obligations.StepKeepsInvariant : Prop :=
  ∀ s t : State, s.Inv → step s = .next t → t.Inv

/-- R65, R210, R217: the host's actions, functions of the model (log entry 15), keep the invariant too. -/
def Obligations.HostActionsKeepInvariant : Prop :=
  ∀ (s t : State) (a : Nat) (b : Byte) (image : List Byte), s.Inv →
    (hostReset s).Inv ∧ (hostLoad a b s = .next t → t.Inv) ∧ (hostStart s = .next t → t.Inv) ∧
    (launch image s = .next t → t.Inv)

/-- R28, R34, R187, R213: after any number of steps from the launch of any image, the invariant holds and the run has not
ended in UnsupportedOperation. -/
def Obligations.EveryRunFromLaunchKeepsInvariant : Prop :=
  ∀ (image : List Byte) (s t : State) (u : core.State) (n : Nat), s.cfg.Admissible → launch image s = .next t →
    core.run n t = .next u → State.Inv u ∧ State.run u ≠ .fault .unsupportedOperation

/-! ### The cycle -/

/-- R90, R96: when the bytes at `pc` are the encoding of a well-formed instruction, a step of the running machine is exactly
that instruction's meaning. -/
def Obligations.StepRunsTheInstructionAtPc : Prop :=
  ∀ (s : State) (i : Instr), s.run = .running → s.cfg.opc.Injective → WellFormed i → s.InstrAt i →
    step s = exec i s

/-- R90..R96, R191: for every running state, the step through the byte-sequence decoder is the cycle the spec writes, action by
action and read by read (log entry 14; the order of the checks is decision D12's). -/
def Obligations.StepIsTheSpecifiedCycle : Prop :=
  ∀ s : State, s.run = .running → step s = cycle s

/-- R98: the core has a step exactly when `run = RUN`; a step goes on running unless it ran HLT, met an unrecognized opcode, or
raised a fatal condition. -/
def Obligations.StepExactlyWhenRunning : Prop :=
  (∀ s : State, (∃ t, step s = .next t) ↔ s.run = .running) ∧
  ∀ s t : State, step s = .next t →
    t.run = .running ∨
    (t.run = .haltHlt ∧ ∃ rest, fetchDecode s = .instr .hlt rest) ∨
    (t.run = .haltUnrec ∧ ∃ op, fetchDecode s = .unrecognized op) ∨
    ∃ c, t.run = .fault c

/-- R33, R98, and log entry 6 (the model's choice of names): where the core has no step, the model stops under the name of the
run state. -/
def Obligations.StopsAreNamedByRunState : Prop :=
  ∀ s : State,
    (step s = .refused .notStarted ↔ s.run = .load) ∧
    (step s = .refused .haltedByHlt ↔ s.run = .haltHlt) ∧
    (step s = .refused .haltedByUnrecognized ↔ s.run = .haltUnrec) ∧
    ∀ c, step s = .fault (.aborted c) ↔ s.run = .fault c

/-- R91: the opcode fetch reads the cell at `pc`; `pc >= MEM_LEN` ends the run in FAULT(AddressOutOfRange, pc) with `pc` still
holding that value; and a running step leaves such a `pc` only by a control transfer or by an advance to exactly MEM_LEN. -/
def Obligations.OpcodeFetch : Prop :=
  (∀ s : State, s.run = .running →
    (s.pc.toNat < s.cfg.memLen → (fetchBytes s).head? = some (s.byte s.pc.toNat)) ∧
    (s.cfg.memLen ≤ s.pc.toNat →
      step s = .next { s with run := .fault (.addressOutOfRange s.pc.toNat) })) ∧
  ∀ s t : State, s.Inv → step s = .next t → t.run = .running → s.cfg.memLen ≤ t.pc.toNat →
    t.pc.toNat = s.cfg.memLen ∨ ∃ i rest, fetchDecode s = .instr i rest ∧ isSequential i = false

/-- R93, R90, R191: with a row of `n` operands, the operand bytes are those at `pc + 1` and `pc + 2`, and the instruction runs
on them as they were at fetch; where the last of them is past memory the run ends in FAULT(AddressOutOfRange, MEM_LEN), whatever
the register bytes are (that every operand fetch stands before the register checks is decision D12, log entry 5). -/
def Obligations.OperandFetch : Prop :=
  ∀ (s : State) (row : Row), s.run = .running → s.pc.toNat < s.cfg.memLen →
    lookup s.cfg.opc (s.byte s.pc.toNat) = some row →
    (s.cfg.memLen ≤ s.pc.toNat + row.kinds.length →
      step s = .next { s with run := .fault (.addressOutOfRange s.cfg.memLen) }) ∧
    (s.pc.toNat + row.kinds.length < s.cfg.memLen →
      WellFormed (assemble row.op (s.byte (s.pc.toNat + 1)) (s.byte (s.pc.toNat + 2))) →
      step s = exec (assemble row.op (s.byte (s.pc.toNat + 1)) (s.byte (s.pc.toNat + 2))) s)

/-- R95, R78, R181 (decision D10 for `pc`): an unrecognized opcode ends the run in HALT_UNREC with `diag` naming the byte and its
address, in the last cell too, and nothing else changes. -/
def Obligations.UnrecognizedOpcodeHalts : Prop :=
  ∀ s : State, s.run = .running → s.pc.toNat < s.cfg.memLen → s.byte s.pc.toNat ∉ s.cfg.opc.bytes →
    step s = .next { s with run := .haltUnrec, diag := some ⟨s.byte s.pc.toNat, s.pc⟩ }

/-- R94, R184, R191 (decision D7): when every byte of an instruction is in memory and one of its register bytes is above 7, the
run ends in FAULT(InvalidRegister, the first such byte), before any stack check. -/
def Obligations.InvalidRegisterEndsTheRun : Prop :=
  ∀ (s : State) (i : Instr) (b : Byte), s.run = .running → s.cfg.opc.Injective → s.InstrAt i →
    i.invalidReg? = some b → step s = .next { s with run := .fault (.invalidRegister b) }

/-- The model's choice (log entry 5, DEDUCED): a meaning checks its register bytes itself, as the decoder does, also on
instructions that no decode gives (R23 makes the check once, at decode). With an invalid register byte it is the fault of R76
and R184, `opa` reported first, for every state (an empty stack, a branch not taken; decision D7). -/
def Obligations.ExecChecksRegisterOperands : Prop :=
  ∀ (s : State) (i : Instr) (b : Byte), i.invalidReg? = some b →
    exec i s = .next { s with run := .fault (.invalidRegister b) }

/-- R192, R193 (decision D9): a step that ends in a fault changes `run` and nothing else. -/
def Obligations.FaultsArePrecise : Prop :=
  ∀ (s t : State) (c : Cause), step s = .next t → t.run = .fault c → t = { s with run := .fault c }

/-- R189, R55, R187 (decision D8): the fault an instruction itself can raise from a state that meets the invariant: an invalid
register operand of it, overflow of a push at SP 0, underflow of a pop at SP_INIT; never an access out of range, never
UnsupportedOperation. -/
def Obligations.FaultsOfEachInstruction : Prop :=
  ∀ (s t : State) (i : Instr) (c : Cause), s.Inv → s.run = .running → exec i s = .next t → t.run = .fault c →
    (∃ b, i.invalidReg? = some b ∧ c = .invalidRegister b) ∨
    (storesToStack i = true ∧ s.sp = 0#8 ∧ c = .stackOverflow s.pc) ∨
    (loadsFromStack i = true ∧ s.sp.toNat = s.cfg.spInit ∧ c = .stackUnderflow s.pc)

/-! ### Memory -/

/-- R52: an in-range read returns the cell; an out-of-range read raises AddressOutOfRange with that address. -/
def Obligations.MemReadContract : Prop :=
  ∀ (a : Nat) (s : State),
    (a < s.cfg.memLen → memRead a s = .ok (s.byte a)) ∧
    (s.cfg.memLen ≤ a → memRead a s = .error (.addressOutOfRange a))

/-- R53: an in-range write sets its cell and changes no other cell and no other state; an out-of-range write raises
AddressOutOfRange with that address. -/
def Obligations.MemWriteContract : Prop :=
  ∀ (a : Nat) (v : Byte) (s : State), s.mem.wf = true →
    (a < s.cfg.memLen → ∃ t, memWrite a v s = .ok t ∧ t.byte a = v ∧ (∀ q, q ≠ a → t.byte q = s.byte q) ∧
      t = { s with mem := t.mem }) ∧
    (s.cfg.memLen ≤ a → memWrite a v s = .error (.addressOutOfRange a))

/-- The model's form of memory (log entry 17): two canonical memories that read the same at every address are equal. -/
def Obligations.CanonicalMemoriesWithEqualBytesAreEqual : Prop :=
  ∀ m n : Memory, m.wf = true → n.wf = true → (∀ a, m.read a = n.read a) → m = n

/-- R54: an instruction that neither pushes nor calls leaves every byte as it was; a push or call changes at most the byte at
the new SP. -/
def Obligations.MemoryFrame : Prop :=
  ∀ (i : Instr) (s t : State), s.mem.wf = true → exec i s = .next t →
    (storesToStack i = false → ∀ a, t.byte a = s.byte a) ∧
    (storesToStack i = true → ∀ a, a ≠ pushAddr s → t.byte a = s.byte a)

/-- R59: no step changes a cell from SP_INIT up. -/
def Obligations.CellsAboveTheStackRegionNeverChange : Prop :=
  ∀ (s t : State) (a : Nat), s.Inv → step s = .next t → s.cfg.spInit ≤ a → t.byte a = s.byte a

/-- R63 (decision D18), R59: a byte pushed on the cell that is fetched next is the byte that is decoded: where it is no opcode,
the very next step is the controlled halt that names it. -/
def Obligations.PushedByteIsDecodedNext : Prop :=
  ∀ (s t : State) (opa : Byte) (h : opa.toNat < 8), s.Inv → s.run = .running → s.sp ≠ 0#8 →
    exec (.push opa) s = .next t → t.pc = t.sp →
    (fetchBytes t).head? = some (s.reg ⟨opa.toNat, h⟩) ∧
    (s.reg ⟨opa.toNat, h⟩ ∉ s.cfg.opc.bytes →
      step t = .next { t with run := .haltUnrec, diag := some ⟨s.reg ⟨opa.toNat, h⟩, t.pc⟩ })

/-! ### Results of the instructions -/

/-- R110, R77: LDI puts the immediate into its register, unextended, and advances by 3; nothing else changes. -/
def Obligations.LdiResult : Prop :=
  ∀ (s : State) (opa imm : Byte) (h : opa.toNat < 8),
    exec (.ldi opa imm) s = .next { s with regs := s.regs.set opa.toNat imm, pc := s.pc + 3 }

/-- R111 (decision D25): PRN appends the register's value to the output and advances by 2; nothing else changes. -/
def Obligations.PrnResult : Prop :=
  ∀ (s : State) (opa : Byte) (h : opa.toNat < 8),
    exec (.prn opa) s = .next { s with out := s.out ++ [s.reg ⟨opa.toNat, h⟩], pc := s.pc + 2 }

/-- R124, R125, R121 (decisions D3, D4): ADD and MUL write the exact sum or product modulo 256 to the first register and advance
by 3; no flag and nothing else changes, also when both operands name one register. -/
def Obligations.AddMulResult : Prop :=
  ∀ (s : State) (opa opb : Byte) (ha : opa.toNat < 8) (hb : opb.toNat < 8),
    exec (.add opa opb) s = .next { s with
      regs := s.regs.set opa.toNat
        (BitVec.ofNat 8 (((s.reg ⟨opa.toNat, ha⟩).toNat + (s.reg ⟨opb.toNat, hb⟩).toNat) % 256)),
      pc := s.pc + 3 } ∧
    exec (.mul opa opb) s = .next { s with
      regs := s.regs.set opa.toNat
        (BitVec.ofNat 8 (((s.reg ⟨opa.toNat, ha⟩).toNat * (s.reg ⟨opb.toNat, hb⟩).toNat) % 256)),
      pc := s.pc + 3 }

/-- R126 (decision D4): CMP sets the flags to the unsigned order of the two registers and advances by 3; nothing else changes. -/
def Obligations.CmpResult : Prop :=
  ∀ (s : State) (opa opb : Byte) (ha : opa.toNat < 8) (hb : opb.toNat < 8),
    exec (.cmp opa opb) s = .next { s with
      fl := ⟨decide ((s.reg ⟨opa.toNat, ha⟩).toNat < (s.reg ⟨opb.toNat, hb⟩).toNat),
        decide ((s.reg ⟨opb.toNat, hb⟩).toNat < (s.reg ⟨opa.toNat, ha⟩).toNat),
        decide ((s.reg ⟨opa.toNat, ha⟩).toNat = (s.reg ⟨opb.toNat, hb⟩).toNat)⟩,
      pc := s.pc + 3 }

/-- R141, R140: PUSH completes when SP is not 0 (at SP 0 it faults, StackBoundFaults): SP goes down by 1, the cell at the new SP
(computed as the meaning computes it) holds the register, `pc` advances by 2, nothing else changes. -/
def Obligations.PushResult : Prop :=
  ∀ (s : State) (opa : Byte) (h : opa.toNat < 8), s.Inv → s.sp ≠ 0#8 →
    ∃ t, exec (.push opa) s = .next t ∧ t.sp.toNat = s.sp.toNat - 1 ∧ pushAddr s = s.sp.toNat - 1 ∧
      (∀ a, t.byte a = if a = pushAddr s then s.reg ⟨opa.toNat, h⟩ else s.byte a) ∧
      t = { s with sp := t.sp, mem := t.mem, pc := s.pc + 2 }

/-- R142, R140: POP completes when SP is not SP_INIT: the register gets the byte at the old SP, SP goes up by 1, `pc` advances by
2, nothing else changes (the popped cell keeps its byte). -/
def Obligations.PopResult : Prop :=
  ∀ (s : State) (opa : Byte) (h : opa.toNat < 8), s.Inv → s.sp.toNat ≠ s.cfg.spInit →
    ∃ t, exec (.pop opa) s = .next t ∧ t.sp.toNat = s.sp.toNat + 1 ∧
      t = { s with regs := s.regs.set opa.toNat (s.byte s.sp.toNat), sp := t.sp, pc := s.pc + 2 }

/-- R143, R140 (decision D5 for the target): CALL completes when SP is not 0: it pushes `pc + 2` and loads the register's value
into `pc`, any value; nothing else changes. -/
def Obligations.CallResult : Prop :=
  ∀ (s : State) (opa : Byte) (h : opa.toNat < 8), s.Inv → s.sp ≠ 0#8 →
    ∃ t, exec (.call opa) s = .next t ∧ t.sp.toNat = s.sp.toNat - 1 ∧ pushAddr s = s.sp.toNat - 1 ∧
      (∀ a, t.byte a = if a = pushAddr s then s.pc + 2 else s.byte a) ∧
      t = { s with sp := t.sp, mem := t.mem, pc := s.reg ⟨opa.toNat, h⟩ }

/-- R144, R140: RET completes when SP is not SP_INIT: `pc` gets the byte at the old SP, SP goes up by 1, nothing else changes. -/
def Obligations.RetResult : Prop :=
  ∀ s : State, s.Inv → s.sp.toNat ≠ s.cfg.spInit →
    ∃ t, exec .ret s = .next t ∧ t.sp.toNat = s.sp.toNat + 1 ∧ t = { s with pc := s.byte s.sp.toNat, sp := t.sp }

/-- R140, R185, R186 (decision D8): PUSH and CALL at SP 0 end in FAULT(StackOverflow, pc), POP and RET at SP_INIT in
FAULT(StackUnderflow, pc), with nothing written. -/
def Obligations.StackBoundFaults : Prop :=
  ∀ (s : State) (opa : Byte), opa.toNat < 8 →
    (s.sp = 0#8 →
      exec (.push opa) s = .next { s with run := .fault (.stackOverflow s.pc) } ∧
      exec (.call opa) s = .next { s with run := .fault (.stackOverflow s.pc) }) ∧
    (s.sp.toNat = s.cfg.spInit →
      exec (.pop opa) s = .next { s with run := .fault (.stackUnderflow s.pc) } ∧
      exec .ret s = .next { s with run := .fault (.stackUnderflow s.pc) })

/-- R160, R161, R162, R24 (decision D5 for the target): JMP loads the register's value into `pc`, any value; JEQ does so exactly
when EQUAL is set, JNE exactly when it is clear, and each otherwise advances by 2; nothing else changes. -/
def Obligations.JumpResults : Prop :=
  ∀ (s : State) (opa : Byte) (h : opa.toNat < 8),
    exec (.jmp opa) s = .next { s with pc := s.reg ⟨opa.toNat, h⟩ } ∧
    exec (.jeq opa) s = .next { s with pc := if s.fl.eq = true then s.reg ⟨opa.toNat, h⟩ else s.pc + 2 } ∧
    exec (.jne opa) s = .next { s with pc := if s.fl.eq = true then s.pc + 2 else s.reg ⟨opa.toNat, h⟩ }

/-- R163 (decision D11 for the stop): HLT puts 0 into `pc` and ends the run in HALT_HLT, nothing else changes, and the core has no
further step. -/
def Obligations.HltResult : Prop :=
  ∀ s : State, ∃ t, exec .hlt s = .next t ∧ t = { s with pc := 0, run := .haltHlt } ∧ ∀ u, step t ≠ .next u

/-- R120, R121, R123 (decisions D3, D4): the ALU writes one register or all the flags, never both, and touches nothing else; its
results are exact results modulo 256 (SUB among them, which no instruction selects). -/
def Obligations.AluBlock : Prop :=
  ∀ (s : State) (a b : Fin 8),
    alu .add a b s = { s with regs := s.regs.set a (BitVec.ofNat 8 (((s.reg a).toNat + (s.reg b).toNat) % 256)) } ∧
    alu .sub a b s = { s with regs := s.regs.set a (BitVec.ofNat 8 ((256 + (s.reg a).toNat - (s.reg b).toNat) % 256)) } ∧
    alu .mul a b s = { s with regs := s.regs.set a (BitVec.ofNat 8 (((s.reg a).toNat * (s.reg b).toNat) % 256)) } ∧
    ∃ f : Flags, alu .cmp a b s = { s with fl := f } ∧ f.ExactlyOne

/-! ### Frames and whole-machine rules -/

/-- R22: a general register changes only if it is the one the instruction writes. -/
def Obligations.RegisterFrame : Prop :=
  ∀ (i : Instr) (s t : State) (r : Fin 8), exec i s = .next t →
    (∀ b, destReg? i = some b → b.toNat ≠ r.val) → t.reg r = s.reg r

/-- R28, R31, R33, R34: what an instruction leaves alone beside registers and memory: the parameters always (the model's own
field and frame, log entry 1); the diagnostic always; the flags unless it is CMP; SP unless it is PUSH, CALL, POP or RET; the
output unless it is PRN; `run` unless it is HLT or it faults. -/
def Obligations.SpecialStateFrame : Prop :=
  ∀ (i : Instr) (s t : State), exec i s = .next t →
    t.cfg = s.cfg ∧ t.diag = s.diag ∧
    ((∀ a b, i ≠ .cmp a b) → t.fl = s.fl) ∧
    (storesToStack i = false → loadsFromStack i = false → t.sp = s.sp) ∧
    ((∀ a, i ≠ .prn a) → t.out = s.out) ∧
    (i ≠ .hlt → t.run = s.run ∨ ∃ c, t.run = .fault c)

/-- R31: CMP alone writes flags; JEQ and JNE read EQUAL and nothing else of them; every other instruction reads no flag, and
LESS_THAN and GREATER_THAN show only in the flags view. -/
def Obligations.FlagsWrittenByCmpReadByJeqJne : Prop :=
  (∀ (i : Instr) (s t : State), exec i s = .next t → (∀ a b, i ≠ .cmp a b) → t.fl = s.fl) ∧
  (∀ (i : Instr) (s : State) (f : Flags),
    (f.eq = s.fl.eq ∨ ((∀ a, i ≠ .jeq a) ∧ ∀ a, i ≠ .jne a)) →
    ∃ t u, exec i s = .next t ∧ exec i (s.setFlags f) = .next u ∧ t.SameButFlags u) ∧
  ∀ s : State, isLess s = s.fl.lt ∧ isGreater s = s.fl.gt ∧ isEqual s = s.fl.eq

/-- R30: the flags are all false at reset; CMP leaves exactly one true; once exactly one is true it stays so under every step;
and from all false only a CMP leads away. -/
def Obligations.ExactlyOneFlagAfterComparison : Prop :=
  State.reset.fl = ⟨false, false, false⟩ ∧
  (∀ (s t : State) (opa opb : Byte), opa.toNat < 8 → opb.toNat < 8 → exec (.cmp opa opb) s = .next t →
    t.fl.ExactlyOne) ∧
  (∀ s t : State, step s = .next t → s.fl.ExactlyOne → t.fl.ExactlyOne) ∧
  ∀ s t : State, step s = .next t → s.fl = ⟨false, false, false⟩ →
    t.fl = ⟨false, false, false⟩ ∨
    (t.fl.ExactlyOne ∧ ∃ a b rest, fetchDecode s = .instr (.cmp a b) rest)

/-- R28, R29: SP moves by unit steps only: down in a PUSH or CALL, up in a POP or RET. -/
def Obligations.StackPointerMovesByOne : Prop :=
  ∀ s t : State, s.Inv → step s = .next t →
    t.sp = s.sp ∨
    (t.sp.toNat + 1 = s.sp.toNat ∧ ∃ i rest, fetchDecode s = .instr i rest ∧ storesToStack i = true) ∨
    (t.sp.toNat = s.sp.toNat + 1 ∧ ∃ i rest, fetchDecode s = .instr i rest ∧ loadsFromStack i = true)

/-- R25, R26, R143: a sequential instruction that commits leaves `pc` at the next byte after it, without wrap and at most
MEM_LEN; and the return address of a CALL that was fetched is its own address plus 2, without wrap. -/
def Obligations.SequentialAdvanceDoesNotWrap : Prop :=
  ∀ (s t : State) (i : Instr) (rest : List Byte), s.Inv → step s = .next t → t.run = .running →
    fetchDecode s = .instr i rest →
    (isSequential i = true → t.pc.toNat = s.pc.toNat + i.length ∧ t.pc.toNat ≤ s.cfg.memLen) ∧
    (∀ opa, i = .call opa → (t.byte t.sp.toNat).toNat = s.pc.toNat + 2)

/-- R34: the output only grows, by the value of the register a PRN names; the diagnostic changes only on an
unrecognized opcode. -/
def Obligations.OutputIsAppendOnly : Prop :=
  ∀ s t : State, step s = .next t →
    (t.out = s.out ∨ ∃ (opa : Byte) (h : opa.toNat < 8) (rest : List Byte),
      fetchDecode s = .instr (.prn opa) rest ∧ t.out = s.out ++ [s.reg ⟨opa.toNat, h⟩]) ∧
    (t.diag = s.diag ∨ t.run = .haltUnrec)

/-- R145 (1): two pushes and two pops in LIFO order swap the values and give SP back, from any SP of at least 2, whichever
registers are named. -/
def Obligations.StackBalance : Prop :=
  ∀ (s : State) (r1 r2 r3 r4 : Byte) (h1 : r1.toNat < 8) (h2 : r2.toNat < 8) (h3 : r3.toNat < 8) (h4 : r4.toNat < 8),
    s.Inv → 2 ≤ s.sp.toNat →
    ∃ a b c d, exec (.push r1) s = .next a ∧ exec (.push r2) a = .next b ∧ exec (.pop r3) b = .next c ∧
      exec (.pop r4) c = .next d ∧ c.reg ⟨r3.toNat, h3⟩ = s.reg ⟨r2.toNat, h2⟩ ∧
      d.reg ⟨r4.toNat, h4⟩ = s.reg ⟨r1.toNat, h1⟩ ∧
      (r3 ≠ r4 → d.reg ⟨r3.toNat, h3⟩ = s.reg ⟨r2.toNat, h2⟩) ∧ d.sp = s.sp

/-- R145 (2), R143, R144: after a CALL, a RET in any later state with the CALL's SP and its return-address cell untouched resumes
at the CALL's own address plus 2 with SP as before the CALL. -/
def Obligations.CallReturnBalance : Prop :=
  ∀ (s : State) (opa : Byte), opa.toNat < 8 → s.Inv → s.sp ≠ 0#8 →
    ∃ a, exec (.call opa) s = .next a ∧
      ∀ b : State, b.Inv → b.cfg = s.cfg → b.sp = a.sp → b.byte a.sp.toNat = a.byte a.sp.toNat →
        ∃ c, exec .ret b = .next c ∧ c.pc = s.pc + 2 ∧ c.sp = s.sp

/-! ### The views -/

/-- R198 (decision D21): the trace shows `pc`, the registers, and the byte at `pc + k` exactly where that cell exists. -/
def Obligations.TraceShowsExistingCells : Prop :=
  ∀ (s : State) (k : Nat), k < 3 →
    (trace s).pc = s.pc ∧ (trace s).regs = s.regs ∧
    (trace s).bytes[k]? = some (if s.pc.toNat + k < s.cfg.memLen then some (s.byte (s.pc.toNat + k)) else none)

/-- R6, R82, R216: the text record of a byte is its eight binary digits, the most significant first. -/
def Obligations.RecordOfBinaryDigits : Prop :=
  ∀ b : Byte,
    readRecord ((List.range 8).map fun k => if b.getLsbD (7 - k) then '1' else '0') = .byte b
end

