-- ==== Sys2Proof/Laws/State.lean ====
section
/-! SUPPORT. One lemma per field per update of State, each true by rfl, so that no later proof unfolds a record update. -/

namespace Sys2Proof.Machine

variable (s : State)

@[simp] theorem State.setReg_cfg (r : Fin 8) (v : Byte) : (s.setReg r v).cfg = s.cfg := rfl
@[simp] theorem State.setReg_regs (r : Fin 8) (v : Byte) : (s.setReg r v).regs = s.regs.set r v := rfl
@[simp] theorem State.setReg_sp (r : Fin 8) (v : Byte) : (s.setReg r v).sp = s.sp := rfl
@[simp] theorem State.setReg_pc (r : Fin 8) (v : Byte) : (s.setReg r v).pc = s.pc := rfl
@[simp] theorem State.setReg_fl (r : Fin 8) (v : Byte) : (s.setReg r v).fl = s.fl := rfl
@[simp] theorem State.setReg_mem (r : Fin 8) (v : Byte) : (s.setReg r v).mem = s.mem := rfl
@[simp] theorem State.setReg_run (r : Fin 8) (v : Byte) : (s.setReg r v).run = s.run := rfl
@[simp] theorem State.setReg_out (r : Fin 8) (v : Byte) : (s.setReg r v).out = s.out := rfl
@[simp] theorem State.setReg_diag (r : Fin 8) (v : Byte) : (s.setReg r v).diag = s.diag := rfl

@[simp] theorem State.setPc_cfg (t : Byte) : (s.setPc t).cfg = s.cfg := rfl
@[simp] theorem State.setPc_regs (t : Byte) : (s.setPc t).regs = s.regs := rfl
@[simp] theorem State.setPc_sp (t : Byte) : (s.setPc t).sp = s.sp := rfl
@[simp] theorem State.setPc_pc (t : Byte) : (s.setPc t).pc = t := rfl
@[simp] theorem State.setPc_fl (t : Byte) : (s.setPc t).fl = s.fl := rfl
@[simp] theorem State.setPc_mem (t : Byte) : (s.setPc t).mem = s.mem := rfl
@[simp] theorem State.setPc_run (t : Byte) : (s.setPc t).run = s.run := rfl
@[simp] theorem State.setPc_out (t : Byte) : (s.setPc t).out = s.out := rfl
@[simp] theorem State.setPc_diag (t : Byte) : (s.setPc t).diag = s.diag := rfl

@[simp] theorem State.advance_cfg (n : Nat) : (s.advance n).cfg = s.cfg := rfl
@[simp] theorem State.advance_regs (n : Nat) : (s.advance n).regs = s.regs := rfl
@[simp] theorem State.advance_sp (n : Nat) : (s.advance n).sp = s.sp := rfl
@[simp] theorem State.advance_pc (n : Nat) : (s.advance n).pc = s.pc + BitVec.ofNat 8 n := rfl
@[simp] theorem State.advance_fl (n : Nat) : (s.advance n).fl = s.fl := rfl
@[simp] theorem State.advance_mem (n : Nat) : (s.advance n).mem = s.mem := rfl
@[simp] theorem State.advance_run (n : Nat) : (s.advance n).run = s.run := rfl
@[simp] theorem State.advance_out (n : Nat) : (s.advance n).out = s.out := rfl
@[simp] theorem State.advance_diag (n : Nat) : (s.advance n).diag = s.diag := rfl

@[simp] theorem State.setSp_cfg (v : Byte) : (s.setSp v).cfg = s.cfg := rfl
@[simp] theorem State.setSp_regs (v : Byte) : (s.setSp v).regs = s.regs := rfl
@[simp] theorem State.setSp_sp (v : Byte) : (s.setSp v).sp = v := rfl
@[simp] theorem State.setSp_pc (v : Byte) : (s.setSp v).pc = s.pc := rfl
@[simp] theorem State.setSp_fl (v : Byte) : (s.setSp v).fl = s.fl := rfl
@[simp] theorem State.setSp_mem (v : Byte) : (s.setSp v).mem = s.mem := rfl
@[simp] theorem State.setSp_run (v : Byte) : (s.setSp v).run = s.run := rfl
@[simp] theorem State.setSp_out (v : Byte) : (s.setSp v).out = s.out := rfl
@[simp] theorem State.setSp_diag (v : Byte) : (s.setSp v).diag = s.diag := rfl

@[simp] theorem State.setMem_cfg (m : Memory) : (s.setMem m).cfg = s.cfg := rfl
@[simp] theorem State.setMem_regs (m : Memory) : (s.setMem m).regs = s.regs := rfl
@[simp] theorem State.setMem_sp (m : Memory) : (s.setMem m).sp = s.sp := rfl
@[simp] theorem State.setMem_pc (m : Memory) : (s.setMem m).pc = s.pc := rfl
@[simp] theorem State.setMem_fl (m : Memory) : (s.setMem m).fl = s.fl := rfl
@[simp] theorem State.setMem_mem (m : Memory) : (s.setMem m).mem = m := rfl
@[simp] theorem State.setMem_run (m : Memory) : (s.setMem m).run = s.run := rfl
@[simp] theorem State.setMem_out (m : Memory) : (s.setMem m).out = s.out := rfl
@[simp] theorem State.setMem_diag (m : Memory) : (s.setMem m).diag = s.diag := rfl

@[simp] theorem State.setFlags_cfg (f : Flags) : (s.setFlags f).cfg = s.cfg := rfl
@[simp] theorem State.setFlags_regs (f : Flags) : (s.setFlags f).regs = s.regs := rfl
@[simp] theorem State.setFlags_sp (f : Flags) : (s.setFlags f).sp = s.sp := rfl
@[simp] theorem State.setFlags_pc (f : Flags) : (s.setFlags f).pc = s.pc := rfl
@[simp] theorem State.setFlags_fl (f : Flags) : (s.setFlags f).fl = f := rfl
@[simp] theorem State.setFlags_mem (f : Flags) : (s.setFlags f).mem = s.mem := rfl
@[simp] theorem State.setFlags_run (f : Flags) : (s.setFlags f).run = s.run := rfl
@[simp] theorem State.setFlags_out (f : Flags) : (s.setFlags f).out = s.out := rfl
@[simp] theorem State.setFlags_diag (f : Flags) : (s.setFlags f).diag = s.diag := rfl

@[simp] theorem State.setRun_cfg (r : RunState) : (s.setRun r).cfg = s.cfg := rfl
@[simp] theorem State.setRun_regs (r : RunState) : (s.setRun r).regs = s.regs := rfl
@[simp] theorem State.setRun_sp (r : RunState) : (s.setRun r).sp = s.sp := rfl
@[simp] theorem State.setRun_pc (r : RunState) : (s.setRun r).pc = s.pc := rfl
@[simp] theorem State.setRun_fl (r : RunState) : (s.setRun r).fl = s.fl := rfl
@[simp] theorem State.setRun_mem (r : RunState) : (s.setRun r).mem = s.mem := rfl
@[simp] theorem State.setRun_run (r : RunState) : (s.setRun r).run = r := rfl
@[simp] theorem State.setRun_out (r : RunState) : (s.setRun r).out = s.out := rfl
@[simp] theorem State.setRun_diag (r : RunState) : (s.setRun r).diag = s.diag := rfl

@[simp] theorem State.emit_cfg (v : Byte) : (s.emit v).cfg = s.cfg := rfl
@[simp] theorem State.emit_regs (v : Byte) : (s.emit v).regs = s.regs := rfl
@[simp] theorem State.emit_sp (v : Byte) : (s.emit v).sp = s.sp := rfl
@[simp] theorem State.emit_pc (v : Byte) : (s.emit v).pc = s.pc := rfl
@[simp] theorem State.emit_fl (v : Byte) : (s.emit v).fl = s.fl := rfl
@[simp] theorem State.emit_mem (v : Byte) : (s.emit v).mem = s.mem := rfl
@[simp] theorem State.emit_run (v : Byte) : (s.emit v).run = s.run := rfl
@[simp] theorem State.emit_out (v : Byte) : (s.emit v).out = s.out ++ [v] := rfl
@[simp] theorem State.emit_diag (v : Byte) : (s.emit v).diag = s.diag := rfl

@[simp] theorem State.raise_cfg (c : Cause) : (s.raise c).cfg = s.cfg := rfl
@[simp] theorem State.raise_regs (c : Cause) : (s.raise c).regs = s.regs := rfl
@[simp] theorem State.raise_sp (c : Cause) : (s.raise c).sp = s.sp := rfl
@[simp] theorem State.raise_pc (c : Cause) : (s.raise c).pc = s.pc := rfl
@[simp] theorem State.raise_fl (c : Cause) : (s.raise c).fl = s.fl := rfl
@[simp] theorem State.raise_mem (c : Cause) : (s.raise c).mem = s.mem := rfl
@[simp] theorem State.raise_run (c : Cause) : (s.raise c).run = .fault c := rfl
@[simp] theorem State.raise_out (c : Cause) : (s.raise c).out = s.out := rfl
@[simp] theorem State.raise_diag (c : Cause) : (s.raise c).diag = s.diag := rfl

@[simp] theorem State.unrecognized_cfg (op : Byte) : (s.unrecognized op).cfg = s.cfg := rfl
@[simp] theorem State.unrecognized_regs (op : Byte) : (s.unrecognized op).regs = s.regs := rfl
@[simp] theorem State.unrecognized_sp (op : Byte) : (s.unrecognized op).sp = s.sp := rfl
@[simp] theorem State.unrecognized_pc (op : Byte) : (s.unrecognized op).pc = s.pc := rfl
@[simp] theorem State.unrecognized_fl (op : Byte) : (s.unrecognized op).fl = s.fl := rfl
@[simp] theorem State.unrecognized_mem (op : Byte) : (s.unrecognized op).mem = s.mem := rfl
@[simp] theorem State.unrecognized_run (op : Byte) : (s.unrecognized op).run = .haltUnrec := rfl
@[simp] theorem State.unrecognized_out (op : Byte) : (s.unrecognized op).out = s.out := rfl
@[simp] theorem State.unrecognized_diag (op : Byte) : (s.unrecognized op).diag = some ⟨op, s.pc⟩ := rfl

/-- Reading a general register after writing one (R23). -/
@[simp] theorem State.reg_setReg (r q : Fin 8) (v : Byte) :
    (s.setReg r v).reg q = if r = q then v else s.reg q := by
  simp [State.reg, Vector.getElem_set, Fin.ext_iff]
@[simp] theorem State.reg_setPc (q : Fin 8) (t : Byte) : (s.setPc t).reg q = s.reg q := rfl
@[simp] theorem State.reg_advance (q : Fin 8) (n : Nat) : (s.advance n).reg q = s.reg q := rfl
@[simp] theorem State.reg_setSp (q : Fin 8) (v : Byte) : (s.setSp v).reg q = s.reg q := rfl
@[simp] theorem State.reg_setMem (q : Fin 8) (m : Memory) : (s.setMem m).reg q = s.reg q := rfl
@[simp] theorem State.reg_setFlags (q : Fin 8) (f : Flags) : (s.setFlags f).reg q = s.reg q := rfl
@[simp] theorem State.reg_setRun (q : Fin 8) (r : RunState) : (s.setRun r).reg q = s.reg q := rfl
@[simp] theorem State.reg_emit (q : Fin 8) (v : Byte) : (s.emit v).reg q = s.reg q := rfl
@[simp] theorem State.reg_raise (q : Fin 8) (c : Cause) : (s.raise c).reg q = s.reg q := rfl
@[simp] theorem State.reg_unrecognized (q : Fin 8) (op : Byte) : (s.unrecognized op).reg q = s.reg q := rfl

end Sys2Proof.Machine
end

