-- ==== Sys2Proof/Laws/Memory.lean ====
section
/-! SUPPORT. Memory: read after write, and that every operation keeps the canonical form and the address bound. -/

namespace Sys2Proof.Machine

@[simp] theorem Memory.read_nil (a : Nat) : Memory.read [] a = 0 := rfl

theorem Memory.wfFrom_mono {m : Memory} {lo hi : Nat} (h : lo ≤ hi) (hm : m.wfFrom hi = true) : m.wfFrom lo = true := by
  cases m with
  | nil => rfl
  | cons c rest =>
    simp only [Memory.wfFrom, Bool.and_eq_true, decide_eq_true_eq] at hm ⊢
    exact ⟨⟨by omega, hm.1.2⟩, hm.2⟩

/-- A canonical memory lists no cell below its lower bound. -/
theorem Memory.read_below_wfFrom {m : Memory} {lo a : Nat} (hm : m.wfFrom lo = true) (ha : a < lo) : m.read a = 0 := by
  induction m generalizing lo with
  | nil => rfl
  | cons c rest ih =>
    simp only [Memory.wfFrom, Bool.and_eq_true, decide_eq_true_eq] at hm
    rw [Memory.read, if_neg (by omega)]
    exact ih hm.2 (by omega)

theorem Memory.read_listed {m : Memory} {a : Nat} (v : Byte) (hm : m.wfFrom (a + 1) = true) (q : Nat) :
    (Memory.listed a v m).read q = if q = a then v else m.read q := by
  unfold Memory.listed unlistedByte
  split
  · split
    · subst_vars; exact Memory.read_below_wfFrom hm (Nat.lt_succ_self _)
    · rfl
  · simp [Memory.read]

theorem Memory.read_write_from {m : Memory} {lo : Nat} (hm : m.wfFrom lo = true) (a : Nat) (v : Byte) (q : Nat) :
    (m.write a v).read q = if q = a then v else m.read q := by
  induction m generalizing lo with
  | nil => exact Memory.read_listed v rfl q
  | cons c rest ih =>
    obtain ⟨b, w⟩ := c
    simp only [Memory.wfFrom, Bool.and_eq_true, decide_eq_true_eq] at hm
    unfold Memory.write
    split
    · refine Memory.read_listed v ?_ q
      simp only [Memory.wfFrom, Bool.and_eq_true, decide_eq_true_eq]
      exact ⟨⟨by omega, hm.1.2⟩, hm.2⟩
    · split
      · subst_vars
        rw [Memory.read_listed v hm.2]
        simp only [Memory.read]
        split <;> rfl
      · simp only [Memory.read, ih hm.2]
        split
        · rw [if_neg (by omega)]
        · rfl

/-- Read after write (R53, R60): the written cell holds the value, every other cell is as before. -/
theorem Memory.read_write {m : Memory} (hm : m.wf = true) (a : Nat) (v : Byte) (q : Nat) :
    (m.write a v).read q = if q = a then v else m.read q :=
  Memory.read_write_from hm a v q

theorem Memory.wfFrom_listed {m : Memory} {lo a : Nat} (v : Byte) (h : lo ≤ a) (hm : m.wfFrom (a + 1) = true) :
    (Memory.listed a v m).wfFrom lo = true := by
  unfold Memory.listed
  split
  · exact Memory.wfFrom_mono (by omega) hm
  · simp only [Memory.wfFrom, Bool.and_eq_true, decide_eq_true_eq]
    exact ⟨⟨h, ‹_›⟩, hm⟩

theorem Memory.wfFrom_write {m : Memory} {lo a : Nat} (v : Byte) (h : lo ≤ a) (hm : m.wfFrom lo = true) :
    (m.write a v).wfFrom lo = true := by
  induction m generalizing lo with
  | nil => exact Memory.wfFrom_listed v h rfl
  | cons c rest ih =>
    obtain ⟨b, w⟩ := c
    simp only [Memory.wfFrom, Bool.and_eq_true, decide_eq_true_eq] at hm
    unfold Memory.write
    split
    · refine Memory.wfFrom_listed v h ?_
      simp only [Memory.wfFrom, Bool.and_eq_true, decide_eq_true_eq]
      exact ⟨⟨by omega, hm.1.2⟩, hm.2⟩
    · split
      · subst_vars; exact Memory.wfFrom_listed v h hm.2
      · simp only [Memory.wfFrom, Bool.and_eq_true, decide_eq_true_eq]
        exact ⟨hm.1, ih (by omega) hm.2⟩

/-- A write keeps the canonical form. -/
theorem Memory.wf_write {m : Memory} (hm : m.wf = true) (a : Nat) (v : Byte) : (m.write a v).wf = true :=
  Memory.wfFrom_write v (Nat.zero_le a) hm

theorem Memory.below_listed {m : Memory} {n a : Nat} (v : Byte) (ha : a < n) (hm : m.below n = true) :
    (Memory.listed a v m).below n = true := by
  unfold Memory.listed
  split
  · exact hm
  · simpa [Memory.below, ha] using hm

/-- A write inside the address space keeps memory inside it. -/
theorem Memory.below_write {m : Memory} {n a : Nat} (v : Byte) (ha : a < n) (hm : m.below n = true) :
    (m.write a v).below n = true := by
  induction m with
  | nil => exact Memory.below_listed v ha rfl
  | cons c rest ih =>
    obtain ⟨b, w⟩ := c
    have h2 : b < n ∧ Memory.below n rest = true := by simpa [Memory.below] using hm
    unfold Memory.write
    split
    · exact Memory.below_listed v ha hm
    · split
      · exact Memory.below_listed v ha h2.2
      · have := ih h2.2
        simp only [Memory.below, List.all_cons, Bool.and_eq_true, decide_eq_true_eq] at this ⊢
        exact ⟨h2.1, this⟩

/-- Placing bytes (`withFetchWord`) keeps the canonical form. -/
theorem Memory.wf_placeBytes (n : Nat) (bs : List Byte) (a : Nat) {m : Memory} (hm : m.wf = true) :
    (placeBytes n bs a m).wf = true := by
  induction bs generalizing a m with
  | nil => exact hm
  | cons b rest ih =>
    unfold placeBytes
    split
    · exact ih _ (Memory.wf_write hm _ _)
    · exact ih _ hm

theorem reset_mem_wf (c : Config) : (State.resetWith c).mem.wf = true := rfl

end Sys2Proof.Machine
end

