-- ==== Sys2Proof/Laws/Ops.lean ====
section
/-! SUPPORT. One lemma per shared operation that says once what it can do; later proofs cite these. -/

namespace Sys2Proof.Machine

@[simp] theorem ok_bind {α β : Type} (a : α) (f : α → Except Cause β) : (Except.ok a >>= f) = f a := rfl

@[simp] theorem error_bind {α β : Type} (c : Cause) (f : α → Except Cause β) :
    ((Except.error c : Except Cause α) >>= f) = .error c := rfl

@[simp] theorem pure_eq_ok {α : Type} (a : α) : (pure a : Except Cause α) = .ok a := rfl

@[simp] theorem commit_ok (s t : State) : commit s (.ok t) = .next t := rfl

@[simp] theorem commit_error (s : State) (c : Cause) : commit s (.error c) = .next (s.raise c) := rfl

/-- A commit answers the new state or the fault taken in the old one (R97, R193). -/
theorem commit_cases {s t : State} {r : Except Cause State} (h : commit s r = .next t) :
    r = .ok t ∨ ∃ c, r = .error c ∧ t = s.raise c := by
  cases r with
  | ok u => exact .inl (congrArg Except.ok (by simpa using h))
  | error c => exact .inr ⟨c, rfl, by simpa using h.symm⟩

theorem memRead_ok {addr : Nat} {s : State} (h : addr < s.cfg.memLen) : memRead addr s = .ok (s.mem.read addr) :=
  if_pos h

theorem memRead_error {addr : Nat} {s : State} (h : s.cfg.memLen ≤ addr) :
    memRead addr s = .error (.addressOutOfRange addr) :=
  if_neg (by omega)

theorem memWrite_ok {addr : Nat} {v : Byte} {s : State} (h : addr < s.cfg.memLen) :
    memWrite addr v s = .ok (s.setMem (s.mem.write addr v)) :=
  if_pos h

theorem memWrite_error {addr : Nat} {v : Byte} {s : State} (h : s.cfg.memLen ≤ addr) :
    memWrite addr v s = .error (.addressOutOfRange addr) :=
  if_neg (by omega)

theorem regIndex_ok {b : Byte} (h : b.toNat < 8) : regIndex b = .ok ⟨b.toNat, h⟩ := dif_pos h

theorem regIndex_error {b : Byte} (h : 8 ≤ b.toNat) : regIndex b = .error (.invalidRegister b) := dif_neg (by omega)

/-- What `Reg(b)` can answer (R76). -/
theorem regIndex_cases (b : Byte) :
    (∃ h : b.toNat < 8, regIndex b = .ok ⟨b.toNat, h⟩) ∨ (8 ≤ b.toNat ∧ regIndex b = .error (.invalidRegister b)) := by
  by_cases h : b.toNat < 8
  · exact .inl ⟨h, regIndex_ok h⟩
  · exact .inr ⟨by omega, regIndex_error (by omega)⟩

theorem readReg_ok {b : Byte} (h : b.toNat < 8) (s : State) : readReg b s = .ok (s.reg ⟨b.toNat, h⟩) := by
  simp [readReg, regIndex_ok h]

theorem readReg_error {b : Byte} (h : 8 ≤ b.toNat) (s : State) : readReg b s = .error (.invalidRegister b) := by
  simp [readReg, regIndex_error h]

theorem writeReg_ok {b : Byte} (h : b.toNat < 8) (v : Byte) (s : State) :
    writeReg b v s = .ok (s.setReg ⟨b.toNat, h⟩ v) := by
  simp [writeReg, regIndex_ok h]

theorem writeReg_error {b : Byte} (h : 8 ≤ b.toNat) (v : Byte) (s : State) :
    writeReg b v s = .error (.invalidRegister b) := by
  simp [writeReg, regIndex_error h]

/-- The state a push leaves. -/
abbrev pushed (v : Byte) (s : State) : State :=
  (s.setSp (s.sp - 1#8)).setMem (s.mem.write (pushAddr s) v)

theorem pushAddr_eq {s : State} (h : s.sp ≠ 0#8) : pushAddr s + 1 = s.sp.toNat := by
  unfold pushAddr; bv_omega

/-- What a push can do (R140): overflow at `sp = 0`, an access out of range, or the store at the new SP. -/
theorem push_cases (v : Byte) (s : State) :
    (s.sp = 0#8 ∧ push v s = .error (.stackOverflow s.pc)) ∨
    (s.sp ≠ 0#8 ∧ s.cfg.memLen ≤ pushAddr s ∧ push v s = .error (.addressOutOfRange (pushAddr s))) ∨
    (s.sp ≠ 0#8 ∧ pushAddr s < s.cfg.memLen ∧ push v s = .ok (pushed v s)) := by
  unfold push memWrite
  split
  · exact .inl ⟨‹_›, rfl⟩
  · split
    · exact .inr (.inr ⟨‹_›, ‹_›, rfl⟩)
    · exact .inr (.inl ⟨‹_›, by simp_all, rfl⟩)

/-- What a pop can do (R140): underflow at `sp = SP_INIT`, an access out of range, or the byte at the old SP. -/
theorem pop_cases (s : State) :
    (s.sp.toNat = s.cfg.spInit ∧ pop s = .error (.stackUnderflow s.pc)) ∨
    (s.sp.toNat ≠ s.cfg.spInit ∧ s.cfg.memLen ≤ s.sp.toNat ∧ pop s = .error (.addressOutOfRange s.sp.toNat)) ∨
    (s.sp.toNat ≠ s.cfg.spInit ∧ s.sp.toNat < s.cfg.memLen ∧
      pop s = .ok (s.mem.read s.sp.toNat, s.setSp (s.sp + 1#8))) := by
  unfold pop memRead
  split
  · exact .inl ⟨‹_›, rfl⟩
  · split
    · exact .inr (.inr ⟨‹_›, ‹_›, rfl⟩)
    · exact .inr (.inl ⟨‹_›, by omega, rfl⟩)

end Sys2Proof.Machine
end

