-- ==== Sys2Proof/Laws/Alu.lean ====
section
/-! SUPPORT. The ALU's exact-then-wrap arithmetic is the bit vectors' own (spec/42_alu.md R121). -/

namespace Sys2Proof.Machine

theorem wrap_natCast (n : Nat) : wrap (n : Int) = BitVec.ofNat 8 n := by simp [wrap]

theorem aluAdd_eq (a b : Byte) : aluAdd a b = a + b := by
  rw [aluAdd, ← Int.natCast_add, wrap_natCast, BitVec.ofNat_add]; simp

theorem aluMul_eq (a b : Byte) : aluMul a b = a * b := by
  rw [aluMul, ← Int.natCast_mul, wrap_natCast, BitVec.ofNat_mul]; simp

theorem aluSub_eq (a b : Byte) : aluSub a b = a - b := by
  apply BitVec.eq_of_toNat_eq
  have ha := a.isLt
  have hb := b.isLt
  rw [aluSub, wrap, BitVec.toNat_ofInt, BitVec.toNat_sub]
  omega

/-- The ALU writes one register or the flags, never both (R120). -/
theorem alu_frame (op : AluOp) (a b : Fin 8) (s : State) :
    (∃ v, alu op a b s = s.setReg a v) ∨ ∃ f, alu op a b s = s.setFlags f := by
  cases op
  · exact .inl ⟨_, rfl⟩
  · exact .inl ⟨_, rfl⟩
  · exact .inl ⟨_, rfl⟩
  · exact .inr ⟨_, rfl⟩

end Sys2Proof.Machine
end

