-- ==== Sys2Proof/Laws/Decode.lean ====
section
/-! SUPPORT. The dispatch table: a looked-up row is a row of the table, and an opcode finds its own row. -/

namespace Sys2Proof

/-- The operand kinds of an operation's row (R74). -/
def rowOf (o : Opc) (p : Op) : Row :=
  ⟨p, opcodeOf o p, match p with
    | .ldi => [.reg, .imm]
    | .prn => [.reg]
    | .add => [.reg, .reg]
    | .mul => [.reg, .reg]
    | .cmp => [.reg, .reg]
    | .push => [.reg]
    | .pop => [.reg]
    | .call => [.reg]
    | .ret => []
    | .jmp => [.reg]
    | .jeq => [.reg]
    | .jne => [.reg]
    | .hlt => []⟩

/-- What a lookup finds is the row of an operation whose opcode is the byte looked up (R92). -/
theorem lookup_cases {o : Opc} {b : Byte} {r : Row} (h : lookup o b = some r) :
    r = rowOf o r.op ∧ opcodeOf o r.op = b := by
  have hm := List.mem_of_find?_eq_some h
  have hb : r.opcode = b := by simpa using List.find?_some (p := fun r : Row => r.opcode == b) h
  have hr : r = rowOf o r.op := by
    simp only [dispatchTable, List.mem_cons, List.not_mem_nil, or_false] at hm
    rcases hm with rfl | rfl | rfl | rfl | rfl | rfl | rfl | rfl | rfl | rfl | rfl | rfl | rfl <;> rfl
  refine ⟨hr, ?_⟩
  have : r.opcode = opcodeOf o r.op := by rw [hr]; rfl
  rw [← this]; exact hb

/-- In a table with distinct opcodes a row is found by its own opcode. -/
theorem find_own_row {rows : List Row} {r : Row} (hd : (rows.map Row.opcode).Nodup) (hr : r ∈ rows) :
    rows.find? (fun q => q.opcode == r.opcode) = some r := by
  induction rows with
  | nil => cases hr
  | cons q rest ih =>
    rw [List.map_cons, List.nodup_cons] at hd
    rcases List.mem_cons.1 hr with rfl | hr
    · simp
    · have hne : q.opcode ≠ r.opcode := fun he => hd.1 (he ▸ List.mem_map_of_mem hr)
      rw [List.find?_cons_of_neg (by simpa using hne)]
      exact ih hd.2 hr

/-- An opcode finds its own row (R73: the values are distinct). -/
theorem lookup_opcodeOf {o : Opc} (ho : o.Injective) (p : Op) : lookup o (opcodeOf o p) = some (rowOf o p) := by
  have hm : rowOf o p ∈ dispatchTable o := by cases p <;> simp [rowOf, dispatchTable, opcodeOf]
  exact find_own_row (r := rowOf o p) ho hm

/-- A byte has no row exactly when it is none of the 13 opcode bytes (R78). -/
theorem lookup_eq_none {o : Opc} {b : Byte} : lookup o b = none ↔ b ∉ o.bytes := by
  have hb : o.bytes = (dispatchTable o).map Row.opcode := rfl
  rw [hb, lookup, List.find?_eq_none, List.mem_map]
  simp

/-- An instruction is its operation with its operand bytes. -/
theorem assemble_op (i : Instr) : assemble i.op (i.operands.getD 0 0) (i.operands.getD 1 0) = i := by
  cases i <;> rfl

theorem operands_length (o : Opc) (i : Instr) : i.operands.length = (rowOf o i.op).kinds.length := by
  cases i <;> rfl

theorem op_assemble (p : Op) (a b : Byte) : (assemble p a b).op = p := by cases p <;> rfl

theorem isRegByte_iff (b : Byte) : isRegByte b = true ↔ b.toNat < 8 := by
  rw [isRegByte, decide_eq_true_eq]; omega

theorem not_isRegByte_iff (b : Byte) : (!isRegByte b) = true ↔ 8 ≤ b.toNat := by
  rw [isRegByte, Bool.not_eq_true', decide_eq_false_iff_not]; omega

/-- A well-formed instruction has no invalid register byte. -/
theorem invalidReg?_eq_none {i : Instr} : i.invalidReg? = none ↔ WellFormed i := by
  simp [Instr.invalidReg?, WellFormed]

/-- What validation reports is above 7 and is a register operand (R76, R94). -/
theorem invalidReg?_spec {i : Instr} {b : Byte} (h : i.invalidReg? = some b) : 8 ≤ b.toNat ∧ b ∈ i.regOperands :=
  ⟨(not_isRegByte_iff b).1 (List.find?_some (p := fun b => !isRegByte b) h), List.mem_of_find?_eq_some h⟩

/-- No row has more than two operands. -/
theorem rowOf_kinds_length (o : Opc) (p : Op) : (rowOf o p).kinds.length ≤ 2 := by
  cases p <;> exact Nat.le_of_ble_eq_true rfl

end Sys2Proof
end

