-- ==== Sys2Proof/Laws/Exec.lean ====
section
/-! SUPPORT. Inversion: once per instruction, everything its meaning can do. Frames and invariants follow by cases. -/

namespace Sys2Proof.Machine

variable (s : State)

theorem execLdi_cases (opa imm : Byte) :
    (8 ≤ opa.toNat ∧ execLdi opa imm s = .next (s.raise (.invalidRegister opa))) ∨
    ∃ h : opa.toNat < 8, execLdi opa imm s = .next ((s.setReg ⟨opa.toNat, h⟩ imm).advance 3) := by
  rcases Nat.lt_or_ge opa.toNat 8 with h | h
  · exact .inr ⟨h, by simp [execLdi, writeReg_ok h]⟩
  · exact .inl ⟨h, by simp [execLdi, writeReg_error h]⟩

theorem execPrn_cases (opa : Byte) :
    (8 ≤ opa.toNat ∧ execPrn opa s = .next (s.raise (.invalidRegister opa))) ∨
    ∃ h : opa.toNat < 8, execPrn opa s = .next ((s.emit (s.reg ⟨opa.toNat, h⟩)).advance 2) := by
  rcases Nat.lt_or_ge opa.toNat 8 with h | h
  · exact .inr ⟨h, by simp [execPrn, readReg_ok h]⟩
  · exact .inl ⟨h, by simp [execPrn, readReg_error h]⟩

/-- The shared body of ADD, MUL and CMP. -/
theorem aluInstr_cases (op : AluOp) (opa opb : Byte) :
    (8 ≤ opa.toNat ∧ aluInstr op opa opb s = .error (.invalidRegister opa)) ∨
    (opa.toNat < 8 ∧ 8 ≤ opb.toNat ∧ aluInstr op opa opb s = .error (.invalidRegister opb)) ∨
    ∃ (ha : opa.toNat < 8) (hb : opb.toNat < 8),
      aluInstr op opa opb s = .ok ((alu op ⟨opa.toNat, ha⟩ ⟨opb.toNat, hb⟩ s).advance 3) := by
  rcases Nat.lt_or_ge opa.toNat 8 with ha | ha
  · rcases Nat.lt_or_ge opb.toNat 8 with hb | hb
    · exact .inr (.inr ⟨ha, hb, by simp [aluInstr, regIndex_ok ha, regIndex_ok hb]⟩)
    · exact .inr (.inl ⟨ha, hb, by simp [aluInstr, regIndex_ok ha, regIndex_error hb]⟩)
  · exact .inl ⟨ha, by simp [aluInstr, regIndex_error ha]⟩

theorem execPush_cases (opa : Byte) :
    (8 ≤ opa.toNat ∧ execPush opa s = .next (s.raise (.invalidRegister opa))) ∨
    (opa.toNat < 8 ∧ s.sp = 0#8 ∧ execPush opa s = .next (s.raise (.stackOverflow s.pc))) ∨
    (opa.toNat < 8 ∧ s.sp ≠ 0#8 ∧ s.cfg.memLen ≤ pushAddr s ∧
      execPush opa s = .next (s.raise (.addressOutOfRange (pushAddr s)))) ∨
    ∃ h : opa.toNat < 8, s.sp ≠ 0#8 ∧ pushAddr s < s.cfg.memLen ∧
      execPush opa s = .next ((pushed (s.reg ⟨opa.toNat, h⟩) s).advance 2) := by
  rcases Nat.lt_or_ge opa.toNat 8 with h | h
  · rcases push_cases (s.reg ⟨opa.toNat, h⟩) s with ⟨h0, he⟩ | ⟨h0, h1, he⟩ | ⟨h0, h1, he⟩
    · exact .inr (.inl ⟨h, h0, by simp [execPush, readReg_ok h, he]⟩)
    · exact .inr (.inr (.inl ⟨h, h0, h1, by simp [execPush, readReg_ok h, he]⟩))
    · exact .inr (.inr (.inr ⟨h, h0, h1, by simp [execPush, readReg_ok h, he]⟩))
  · exact .inl ⟨h, by simp [execPush, readReg_error h]⟩

theorem execCall_cases (opa : Byte) :
    (8 ≤ opa.toNat ∧ execCall opa s = .next (s.raise (.invalidRegister opa))) ∨
    (opa.toNat < 8 ∧ s.sp = 0#8 ∧ execCall opa s = .next (s.raise (.stackOverflow s.pc))) ∨
    (opa.toNat < 8 ∧ s.sp ≠ 0#8 ∧ s.cfg.memLen ≤ pushAddr s ∧
      execCall opa s = .next (s.raise (.addressOutOfRange (pushAddr s)))) ∨
    ∃ h : opa.toNat < 8, s.sp ≠ 0#8 ∧ pushAddr s < s.cfg.memLen ∧
      execCall opa s = .next ((pushed (returnAddr s) s).setPc (s.reg ⟨opa.toNat, h⟩)) := by
  rcases Nat.lt_or_ge opa.toNat 8 with h | h
  · rcases push_cases (returnAddr s) s with ⟨h0, he⟩ | ⟨h0, h1, he⟩ | ⟨h0, h1, he⟩
    · exact .inr (.inl ⟨h, h0, by simp [execCall, readReg_ok h, he]⟩)
    · exact .inr (.inr (.inl ⟨h, h0, h1, by simp [execCall, readReg_ok h, he]⟩))
    · exact .inr (.inr (.inr ⟨h, h0, h1, by simp [execCall, readReg_ok h, he]⟩))
  · exact .inl ⟨h, by simp [execCall, readReg_error h]⟩

theorem execPop_cases (opa : Byte) :
    (8 ≤ opa.toNat ∧ execPop opa s = .next (s.raise (.invalidRegister opa))) ∨
    (opa.toNat < 8 ∧ s.sp.toNat = s.cfg.spInit ∧ execPop opa s = .next (s.raise (.stackUnderflow s.pc))) ∨
    (opa.toNat < 8 ∧ s.sp.toNat ≠ s.cfg.spInit ∧ s.cfg.memLen ≤ s.sp.toNat ∧
      execPop opa s = .next (s.raise (.addressOutOfRange s.sp.toNat))) ∨
    ∃ h : opa.toNat < 8, s.sp.toNat ≠ s.cfg.spInit ∧ s.sp.toNat < s.cfg.memLen ∧
      execPop opa s = .next (((s.setSp (s.sp + 1#8)).setReg ⟨opa.toNat, h⟩ (s.mem.read s.sp.toNat)).advance 2) := by
  rcases Nat.lt_or_ge opa.toNat 8 with h | h
  · rcases pop_cases s with ⟨h0, he⟩ | ⟨h0, h1, he⟩ | ⟨h0, h1, he⟩
    · exact .inr (.inl ⟨h, h0, by simp [execPop, regIndex_ok h, he]⟩)
    · exact .inr (.inr (.inl ⟨h, h0, h1, by simp [execPop, regIndex_ok h, he]⟩))
    · exact .inr (.inr (.inr ⟨h, h0, h1, by simp [execPop, regIndex_ok h, he]⟩))
  · exact .inl ⟨h, by simp [execPop, regIndex_error h]⟩

theorem execRet_cases :
    (s.sp.toNat = s.cfg.spInit ∧ execRet s = .next (s.raise (.stackUnderflow s.pc))) ∨
    (s.sp.toNat ≠ s.cfg.spInit ∧ s.cfg.memLen ≤ s.sp.toNat ∧
      execRet s = .next (s.raise (.addressOutOfRange s.sp.toNat))) ∨
    (s.sp.toNat ≠ s.cfg.spInit ∧ s.sp.toNat < s.cfg.memLen ∧
      execRet s = .next ((s.setSp (s.sp + 1#8)).setPc (s.mem.read s.sp.toNat))) := by
  rcases pop_cases s with ⟨h0, he⟩ | ⟨h0, h1, he⟩ | ⟨h0, h1, he⟩
  · exact .inl ⟨h0, by simp [execRet, he]⟩
  · exact .inr (.inl ⟨h0, h1, by simp [execRet, he]⟩)
  · exact .inr (.inr ⟨h0, h1, by simp [execRet, he]⟩)

/-- The shared body of JMP, JEQ and JNE. -/
theorem jumpIf_cases (taken : Bool) (opa : Byte) :
    (8 ≤ opa.toNat ∧ jumpIf taken opa s = .error (.invalidRegister opa)) ∨
    ∃ h : opa.toNat < 8,
      jumpIf taken opa s = .ok (if taken = true then s.setPc (s.reg ⟨opa.toNat, h⟩) else s.advance 2) := by
  rcases Nat.lt_or_ge opa.toNat 8 with h | h
  · exact .inr ⟨h, by simp [jumpIf, readReg_ok h]⟩
  · exact .inl ⟨h, by simp [jumpIf, readReg_error h]⟩

theorem execHlt_eq : execHlt s = .next ((s.setPc 0#8).setRun .haltHlt) := rfl

end Sys2Proof.Machine
end

