-- ==== Sys2Proof/Laws/PerInstr.lean ====
section
/-! SUPPORT. Statements about every instruction as syntax, one lemma per constructor (LAWS.json). -/

namespace Sys2Proof.Laws

/-- R70, R71, R72: an instruction's encoding has its length, 1 to 3 bytes, and every register operand is one of its operand
bytes. -/
def EncodingShape.Statement (i : Instr) : Prop :=
  ∀ o : Opc, (encode o i).length = i.length ∧ i.length ≤ maxLength ∧ i.regOperands ⊆ i.operands

theorem EncodingShape.ldi (opa imm : Byte) : EncodingShape.Statement (.ldi opa imm) :=
  fun _ => ⟨rfl, Nat.le_of_ble_eq_true rfl, by simp [Instr.regOperands, Instr.operands]⟩
theorem EncodingShape.prn (opa : Byte) : EncodingShape.Statement (.prn opa) :=
  fun _ => ⟨rfl, Nat.le_of_ble_eq_true rfl, List.Subset.refl _⟩
theorem EncodingShape.add (opa opb : Byte) : EncodingShape.Statement (.add opa opb) :=
  fun _ => ⟨rfl, Nat.le_of_ble_eq_true rfl, List.Subset.refl _⟩
theorem EncodingShape.mul (opa opb : Byte) : EncodingShape.Statement (.mul opa opb) :=
  fun _ => ⟨rfl, Nat.le_of_ble_eq_true rfl, List.Subset.refl _⟩
theorem EncodingShape.cmp (opa opb : Byte) : EncodingShape.Statement (.cmp opa opb) :=
  fun _ => ⟨rfl, Nat.le_of_ble_eq_true rfl, List.Subset.refl _⟩
theorem EncodingShape.push (opa : Byte) : EncodingShape.Statement (.push opa) :=
  fun _ => ⟨rfl, Nat.le_of_ble_eq_true rfl, List.Subset.refl _⟩
theorem EncodingShape.pop (opa : Byte) : EncodingShape.Statement (.pop opa) :=
  fun _ => ⟨rfl, Nat.le_of_ble_eq_true rfl, List.Subset.refl _⟩
theorem EncodingShape.call (opa : Byte) : EncodingShape.Statement (.call opa) :=
  fun _ => ⟨rfl, Nat.le_of_ble_eq_true rfl, List.Subset.refl _⟩
theorem EncodingShape.ret : EncodingShape.Statement .ret :=
  fun _ => ⟨rfl, Nat.le_of_ble_eq_true rfl, List.Subset.refl _⟩
theorem EncodingShape.jmp (opa : Byte) : EncodingShape.Statement (.jmp opa) :=
  fun _ => ⟨rfl, Nat.le_of_ble_eq_true rfl, List.Subset.refl _⟩
theorem EncodingShape.jeq (opa : Byte) : EncodingShape.Statement (.jeq opa) :=
  fun _ => ⟨rfl, Nat.le_of_ble_eq_true rfl, List.Subset.refl _⟩
theorem EncodingShape.jne (opa : Byte) : EncodingShape.Statement (.jne opa) :=
  fun _ => ⟨rfl, Nat.le_of_ble_eq_true rfl, List.Subset.refl _⟩
theorem EncodingShape.hlt : EncodingShape.Statement .hlt :=
  fun _ => ⟨rfl, Nat.le_of_ble_eq_true rfl, List.Subset.refl _⟩

end Sys2Proof.Laws
end

