-- ==== Sys2Proof/Tests/Slice0.lean ====
section
/-! SUPPORT. The model's own tests: the WellFormed smoke tests, decoding words written out from the spec's encodings, small steps
whose expected results are those of spec/95_test_vectors.md (the vector is named beside each), and for every statement with
hypotheses a state and operands that meet them. -/

namespace Sys2Proof.Tests

open Sys2Proof.Machine

/-- A running machine with default parameters, given `pc` and `sp`, and bytes at `pc`. -/
def at_ (pc sp : Byte) (bytes : List Byte) : State :=
  { State.reset with pc := pc, sp := sp, run := .running, mem := placeBytes 128 bytes pc.toNat [] }

/-- The outcome is a next state with the property. -/
def nextIs (o : Host.Outcome State Fault Refusal) (p : State → Bool) : Bool :=
  match o with
  | .next s => p s
  | .fault _ => false
  | .refused _ => false

/-- The next state of an outcome, or the given one. -/
def nextOr (o : Host.Outcome State Fault Refusal) (s : State) : State :=
  match o with
  | .next t => t
  | .fault _ => s
  | .refused _ => s

/-! ### WellFormed: the one check refuses an ill-formed term of each shape (30_encoding.md R76: 8 and 129 are not aliases) -/

theorem test_wellFormed_accepts : WellFormed (.add 7 0) ∧ WellFormed (.ldi 7 255) ∧ WellFormed .ret := by decide
theorem test_wellFormed_refuses_opa : ¬ WellFormed (.ldi 8 1) ∧ ¬ WellFormed (.jeq 129) := by decide
theorem test_wellFormed_refuses_opb : ¬ WellFormed (.add 1 9) ∧ (Instr.add 1 9).invalidReg? = some 9 := by decide
theorem test_wellFormed_reports_opa_first : (Instr.cmp 8 9).invalidReg? = some 8 := by decide

/-! ### Decoding: every row of 30_encoding.md R74, the opcode written bit by bit from the table -/

theorem test_decode_ldi : decode Opc.default [0b10000010#8, 3#8, 42#8, 1#8] = .instr (.ldi 3 42) [1#8] := by decide
theorem test_decode_prn : decode Opc.default [0b01000111#8, 7#8] = .instr (.prn 7) [] := by decide
theorem test_decode_add : decode Opc.default [0b10100000#8, 0#8, 1#8] = .instr (.add 0 1) [] := by decide
theorem test_decode_mul : decode Opc.default [0b10100010#8, 2#8, 3#8] = .instr (.mul 2 3) [] := by decide
theorem test_decode_cmp : decode Opc.default [0b10100111#8, 4#8, 5#8] = .instr (.cmp 4 5) [] := by decide
theorem test_decode_push : decode Opc.default [0b01000101#8, 2#8] = .instr (.push 2) [] := by decide
theorem test_decode_pop : decode Opc.default [0b01000110#8, 3#8] = .instr (.pop 3) [] := by decide
theorem test_decode_call : decode Opc.default [0b01010000#8, 1#8] = .instr (.call 1) [] := by decide
theorem test_decode_ret : decode Opc.default [0b00010001#8] = .instr .ret [] := by decide
theorem test_decode_jmp : decode Opc.default [0b01010100#8, 4#8] = .instr (.jmp 4) [] := by decide
theorem test_decode_jeq : decode Opc.default [0b01010101#8, 4#8] = .instr (.jeq 4) [] := by decide
theorem test_decode_jne : decode Opc.default [0b01010110#8, 4#8] = .instr (.jne 4) [] := by decide
theorem test_decode_hlt : decode Opc.default [0b00000001#8] = .instr .hlt [] := by decide

/-- T-CYC 9: the neighbours of the 13 values. -/
theorem test_decode_neighbours :
    [0x00, 0x02, 0x10, 0x12, 0x44, 0x48, 0x51, 0x53, 0x57, 0x83, 0xA1, 0xA3, 0xA8, 0xFF].all
      (fun b => decode Opc.default [b, 0#8, 0#8] == .unrecognized b) = true := by decide
/-- T-LDI 3, 4; T-ALU-1 7, 8. -/
theorem test_decode_invalid_register :
    decode Opc.default [0x82#8, 0x81#8, 1#8] = .invalidRegister 129 ∧
    decode Opc.default [0xA0#8, 1#8, 9#8] = .invalidRegister 9 ∧
    decode Opc.default [0xA0#8, 8#8, 9#8] = .invalidRegister 8 := by decide
theorem test_decode_missing :
    decode Opc.default [] = .missing 0 ∧ decode Opc.default [0x47#8] = .missing 1 ∧
    decode Opc.default [0xA0#8, 9#8] = .missing 2 := by decide
theorem test_encode : encode Opc.default (.ldi 3 42) = [0x82, 3, 42] ∧ encode Opc.default .hlt = [1] := by decide
theorem test_decodeTableWord :
    decodeTableWord 24 0x2A0382 = some (.ldi 3 42) ∧ decodeTableWord 8 0x11 = some .ret ∧
    decodeTableWord 16 0x47 = some (.prn 0) ∧ decodeTableWord 8 0xA1 = none := by decide

/-! ### Steps, from the vectors of 95_test_vectors.md -/

/-- R110, example. -/
theorem test_ldi : nextIs (step (at_ 0 48 [0x82, 3, 42])) (fun t => t.reg 3 == 42 && t.pc == 3) = true := by decide
/-- T-LDI 5: the second operand would be at 128. -/
theorem test_ldi_past_memory :
    step (at_ 126 48 [0x82, 0]) = .next ((at_ 126 48 [0x82, 0]).raise (.addressOutOfRange 128)) := rfl
/-- T-LDI 6. -/
theorem test_prn : nextIs (step ((at_ 10 48 [0x47, 3]).setReg 3 200)) (fun t => t.out == [200] && t.pc == 12) = true := by
  decide
/-- T-CYC 5: the last two cells; the next cycle fetches at 128. -/
theorem test_prn_last_cells :
    nextIs (step (at_ 126 48 [0x47, 0])) (fun t => t.pc == 128 &&
      nextIs (step t) (fun u => u.run == .fault (.addressOutOfRange 128) && u.pc == 128)) = true := by decide
/-- T-ALU-1 3. -/
theorem test_add_wraps :
    nextIs (step (((at_ 0 48 [0xA0, 0, 1]).setReg 0 200).setReg 1 100))
      (fun t => t.reg 0 == 44 && t.reg 1 == 100 && t.pc == 3) = true := by decide
/-- T-ALU-1 5: one register twice. -/
theorem test_add_same : nextIs (step ((at_ 0 48 [0xA0, 1, 1]).setReg 1 130)) (fun t => t.reg 1 == 4) = true := by decide
/-- T-ALU-2 3. -/
theorem test_mul : nextIs (step (((at_ 0 48 [0xA2, 0, 1]).setReg 0 255).setReg 1 255)) (fun t => t.reg 0 == 1) = true := by
  decide
/-- T-ALU-2 8. -/
theorem test_mul_same : nextIs (step ((at_ 0 48 [0xA2, 2, 2]).setReg 2 20)) (fun t => t.reg 2 == 144) = true := by decide
/-- T-ALU-2 9 to 12: ALU.SUB. -/
theorem test_sub : aluSub 5 3 = 2 ∧ aluSub 3 5 = 254 ∧ aluSub 0 255 = 1 ∧ aluSub 77 77 = 0 := by decide
/-- T-ALU-3 6: unsigned, 128 > 127. -/
theorem test_cmp_unsigned :
    nextIs (step (((at_ 0 48 [0xA7, 0, 1]).setReg 0 128).setReg 1 127)) (fun t => t.fl == ⟨false, true, false⟩) = true := by
  decide
/-- T-ALU-3 9: the old flag is cleared. -/
theorem test_cmp_clears :
    nextIs (step ((at_ 0 48 [0xA7, 0, 1]).setFlags ⟨true, false, false⟩)) (fun t => t.fl == ⟨false, false, true⟩) = true := by
  decide
/-- T-STK 1. -/
theorem test_push :
    nextIs (step ((at_ 10 48 [0x45, 2]).setReg 2 7)) (fun t => t.byte 47 == 7 && t.sp == 47 && t.pc == 12) = true := by decide
/-- T-STK 13: the register check precedes the stack check. -/
theorem test_push_invalid : nextIs (step (at_ 10 0 [0x45, 8])) (fun t => t.run == .fault (.invalidRegister 8)) = true := by
  decide
/-- T-STK 2: the popped cell keeps its byte. -/
theorem test_pop :
    nextIs (step ((at_ 12 47 [0x46, 3]).setMem [(12, 0x46), (13, 3), (47, 7)]))
      (fun t => t.reg 3 == 7 && t.sp == 48 && t.pc == 14 && t.byte 47 == 7) = true := by decide
/-- T-STK 3. -/
theorem test_pop_empty :
    step (at_ 0 48 [0x46, 0]) = .next ((at_ 0 48 [0x46, 0]).raise (.stackUnderflow 0)) := rfl
/-- T-STK 8. -/
theorem test_call :
    nextIs (step ((at_ 6 48 [0x50, 1]).setReg 1 20)) (fun t => t.byte 47 == 8 && t.sp == 47 && t.pc == 20) = true := by decide
/-- T-STK 6. -/
theorem test_call_full : nextIs (step (at_ 60 0 [0x50, 1])) (fun t => t.run == .fault (.stackOverflow 60) && t.pc == 60) = true := by
  decide
/-- T-STK 9. -/
theorem test_ret :
    nextIs (step ((at_ 22 47 []).setMem [(22, 0x11), (47, 8)])) (fun t => t.pc == 8 && t.sp == 48) = true := by decide
/-- T-CYC 4: RET in the last cell fetches no operand. -/
theorem test_ret_last_cell : nextIs (step (at_ 127 48 [0x11])) (fun t => t.run == .fault (.stackUnderflow 127)) = true := by
  decide
/-- T-CTL-1 11: any value is loaded; the next fetch faults. -/
theorem test_jmp_out_of_range :
    nextIs (step ((at_ 15 48 [0x54, 0]).setReg 0 200)) (fun t => t.pc == 200 && t.run == .running &&
      nextIs (step t) (fun u => u.run == .fault (.addressOutOfRange 200))) = true := by decide
/-- T-CTL-1 2 and 8. -/
theorem test_jeq :
    nextIs (step (((at_ 15 48 [0x55, 4]).setReg 4 30).setFlags ⟨false, false, true⟩)) (fun t => t.pc == 30) = true ∧
    nextIs (step ((at_ 15 48 [0x55, 4]).setReg 4 30)) (fun t => t.pc == 17) = true := by decide
/-- T-CTL-1 10: validated though not taken. -/
theorem test_jeq_invalid : nextIs (step (at_ 15 48 [0x55, 9])) (fun t => t.run == .fault (.invalidRegister 9)) = true := by
  decide
/-- T-CTL-1 3 and 9. -/
theorem test_jne :
    nextIs (step (((at_ 15 48 [0x56, 4]).setReg 4 30).setFlags ⟨false, false, true⟩)) (fun t => t.pc == 17) = true ∧
    nextIs (step ((at_ 15 48 [0x56, 4]).setReg 4 30)) (fun t => t.pc == 30) = true := by decide
/-- T-CTL-1 13 and T-CYC 2; then the core has no step (R163). -/
theorem test_hlt :
    nextIs (step (at_ 127 48 [1])) (fun t => t.pc == 0 && t.run == .haltHlt && !nextIs (step t) (fun _ => true)) = true := by
  decide
/-- T-CYC 3: unrecognized in the last cell. -/
theorem test_unrecognized :
    nextIs (step (at_ 127 48 [0xA1])) (fun t => t.run == .haltUnrec && t.diag == some ⟨0xA1, 127⟩ && t.pc == 127) = true := by
  decide
/-- T-STK 12 (program P-D): the pushed byte is what is decoded next. -/
theorem test_push_rewrites_next :
    nextIs (step ((at_ 45 48 [0x45, 0, 0x47, 0, 1]).setReg 0 1))
      (fun t => t.pc == 47 && nextIs (step t) (fun u => u.run == .haltHlt && u.out == [])) = true := by decide

/-! ### Reset, the host's interface and the boundary -/

theorem test_reset_stops : step State.reset = .refused .notStarted := rfl
/-- The very next step after `withFetchWord` runs the instruction. -/
theorem test_withFetchWord :
    nextIs (step (State.reset.withFetchWord 24 0x2A0382)) (fun t => t.reg 3 == 42 && t.pc == 3) = true := by decide
/-- T-CYC 1: the empty image. -/
theorem test_empty_image :
    nextIs (launch [] State.reset) (fun t => nextIs (step t) (fun u => u.diag == some ⟨0, 0⟩ && u.run == .haltUnrec)) = true := by
  decide
/-- R198: at the edge of memory the trace shows no byte. -/
theorem test_trace_edge : (trace (at_ 127 48 [7])).bytes = [some 7, none, none] := by decide
/-- R82: the three lines for `LDI R0,8`, with a comment and an empty line (R216); R188. -/
theorem test_readProgram :
    readProgram ["# a".toList, "10000010".toList, "00000000".toList, "".toList, "00001000".toList] = some [0x82, 0, 8] ∧
    readProgram ["1000001".toList] = none := by decide
theorem test_causeCode : causeCode (.addressOutOfRange 200) = 1 ∧ causeCode .unsupportedOperation = 5 := by decide

/-! ### Witnesses: the hypotheses of each statement are met, each clause at a boundary value -/

/-- A running state of the default machine with canonical memory in range and SP in range meets the invariant. -/
theorem inv_at (s : State) (hc : s.cfg = Config.default) (hsp : s.sp.toNat ≤ 48) (hf : s.fl = ⟨false, false, false⟩)
    (hm : s.mem.wf = true) (hb : s.mem.below 128 = true) (hr : s.run = .running) (hd : s.diag = none) : s.Inv where
  cfg := by rw [hc]; decide
  sp := by rw [hc]; exact hsp
  flags := .inl hf
  memWf := hm
  memBelow := by rw [hc]; exact hb
  runFits := by unfold State.RunFits; rw [hr]; exact hd

theorem reset_inv : State.reset.Inv := ⟨by decide, by decide, .inl rfl, rfl, rfl, rfl⟩

theorem witness_DecodeOfEncode : Opc.default.Injective ∧ WellFormed (.add 7 7) := by decide
theorem witness_DecodedBytesAreTheEncoding : decode Opc.default [0x47#8, 7#8] = .instr (.prn 7) [] := by decide
theorem witness_DecodeReportsFirstInvalidRegister :
    Opc.default.Injective ∧ (Instr.add 7 8).invalidReg? = some 8 ∧ (Instr.add 255 8).invalidReg? = some 255 := by decide
theorem witness_UnrecognizedOpcodesAre243 : Opc.default.Injective := by decide
theorem witness_ResetValues : (at_ 3 4 [1]).cfg = Config.default := by decide
theorem witness_LaunchState :
    (List.replicate 128 1#8).length ≤ State.reset.cfg.memLen ∧ 0 < State.reset.cfg.memLen := by
  rw [List.length_replicate]; decide
theorem witness_ImageTooLongIsRefused : State.reset.cfg.memLen < (List.replicate 129 1#8).length := by
  rw [List.length_replicate]; decide
theorem witness_HostActionsOnlyInLoad :
    (at_ 0 48 []).run ≠ .load ∧ State.reset.run = .load ∧ State.reset.mem.wf = true ∧
    127 < State.reset.cfg.memLen ∧ State.reset.cfg.memLen ≤ 128 := by decide
theorem witness_ResetMeetsInvariant : Config.Admissible ⟨64, 64, Opc.default⟩ ∧ Config.Admissible ⟨128, 0, Opc.default⟩ := by
  decide
/-- States that meet the invariant: a register instruction, a push at SP 1, a call at SP 48, a pop at SP 47, a return. -/
theorem inv_ldi : (at_ 0 48 [0x82, 7, 255]).Inv := inv_at _ rfl (by decide) rfl (by decide) (by decide) rfl rfl
theorem inv_push : (at_ 60 1 [0x45, 7]).Inv := inv_at _ rfl (by decide) rfl (by decide) (by decide) rfl rfl
theorem inv_call : (at_ 6 48 [0x50, 7]).Inv := inv_at _ rfl (by decide) rfl (by decide) (by decide) rfl rfl
theorem inv_pop : (at_ 12 47 [0x46, 7]).Inv := inv_at _ rfl (by decide) rfl (by decide) (by decide) rfl rfl
theorem inv_ret : (at_ 22 0 [0x11]).Inv := inv_at _ rfl (by decide) rfl (by decide) (by decide) rfl rfl
theorem inv_cmp : (at_ 125 48 [0xA7, 0, 7]).Inv := inv_at _ rfl (by decide) rfl (by decide) (by decide) rfl rfl
theorem witness_StepKeepsInvariant :
    (at_ 6 48 [0x50, 7]).Inv ∧ step (at_ 6 48 [0x50, 7]) = .next (nextOr (step (at_ 6 48 [0x50, 7])) State.reset) :=
  ⟨inv_call, rfl⟩
theorem witness_HostActionsKeepInvariant :
    State.reset.Inv ∧ hostLoad 127 9 State.reset = .next (nextOr (hostLoad 127 9 State.reset) State.reset) ∧
    hostStart State.reset = .next (State.reset.setRun .running) ∧
    launch [1] State.reset = .next (nextOr (launch [1] State.reset) State.reset) :=
  ⟨reset_inv, rfl, rfl, rfl⟩
theorem witness_EveryRunFromLaunchKeepsInvariant :
    State.reset.cfg.Admissible ∧ launch [0x54, 0] State.reset = .next (at_ 0 48 [0x54, 0]) ∧
    core.run 2 (at_ 0 48 [0x54, 0]) = .next (at_ 0 48 [0x54, 0]) :=
  ⟨by decide, rfl, rfl⟩
/-- The bytes of an instruction stand at `pc` (the last three cells). -/
theorem instrAt_cmp : (at_ 125 48 [0xA7, 0, 7]).InstrAt (.cmp 0 7) := by
  intro k b h
  rcases k with _ | _ | _ | k
  · cases h; decide
  · cases h; decide
  · cases h; decide
  · cases h
theorem witness_StepRunsTheInstructionAtPc :
    (at_ 125 48 [0xA7, 0, 7]).run = .running ∧ (at_ 125 48 [0xA7, 0, 7]).cfg.opc.Injective ∧ WellFormed (.cmp 0 7) ∧
    (at_ 125 48 [0xA7, 0, 7]).InstrAt (.cmp 0 7) :=
  ⟨rfl, by decide, by decide, instrAt_cmp⟩
theorem witness_StepIsTheSpecifiedCycle : (at_ 255 48 []).run = .running := rfl
theorem witness_StepExactlyWhenRunning :
    step (at_ 127 48 [1]) = .next (nextOr (step (at_ 127 48 [1])) State.reset) := rfl
theorem witness_OpcodeFetch :
    (at_ 127 48 [1]).run = .running ∧ (at_ 127 48 [1]).pc.toNat < 128 ∧ (at_ 128 48 []).run = .running ∧
    128 ≤ (at_ 128 48 []).pc.toNat ∧ (at_ 125 48 [0xA7, 0, 7]).Inv ∧
    nextIs (step (at_ 125 48 [0xA7, 0, 7])) (fun t => t.run == .running && t.pc == 128) = true :=
  ⟨rfl, by decide, rfl, by decide, inv_cmp, by decide⟩
theorem witness_OperandFetch :
    lookup (at_ 127 48 [0x47]).cfg.opc ((at_ 127 48 [0x47]).byte 127) = some ⟨.prn, 0x47, [.reg]⟩ ∧
    128 ≤ (at_ 127 48 [0x47]).pc.toNat + 1 ∧
    lookup (at_ 125 48 [0xA0, 0, 1]).cfg.opc ((at_ 125 48 [0xA0, 0, 1]).byte 125) = some ⟨.add, 0xA0, [.reg, .reg]⟩ ∧
    (at_ 125 48 [0xA0, 0, 1]).pc.toNat + 2 < 128 ∧ WellFormed (assemble .add 0 1) := by decide
theorem witness_UnrecognizedOpcodeHalts :
    (at_ 127 48 [0xA1]).run = .running ∧ (at_ 127 48 [0xA1]).pc.toNat < (at_ 127 48 [0xA1]).cfg.memLen ∧
    (at_ 127 48 [0xA1]).byte 127 ∉ (at_ 127 48 [0xA1]).cfg.opc.bytes := by decide
theorem witness_InvalidRegisterEndsTheRun :
    (at_ 126 48 [0x46, 8]).run = .running ∧ (at_ 126 48 [0x46, 8]).cfg.opc.Injective ∧
    (at_ 126 48 [0x46, 8]).InstrAt (.pop 8) ∧ (Instr.pop 8).invalidReg? = some 8 := by
  refine ⟨rfl, by decide, ?_, by decide⟩
  intro k b h
  rcases k with _ | _ | k
  · cases h; decide
  · cases h; decide
  · cases h
theorem witness_ExecChecksRegisterOperands : (Instr.ldi 8 0).invalidReg? = some 8 := by decide
theorem witness_FaultsArePrecise :
    step (at_ 22 48 [0x11]) = .next ((at_ 22 48 [0x11]).raise (.stackUnderflow 22)) := rfl
theorem witness_FaultsOfEachInstruction :
    (at_ 60 0 [0x45, 7]).Inv ∧ exec (.push 7) (at_ 60 0 [0x45, 7]) = .next ((at_ 60 0 [0x45, 7]).raise (.stackOverflow 60)) :=
  ⟨inv_at _ rfl (by decide) rfl (by decide) (by decide) rfl rfl, rfl⟩
theorem witness_MemReadContract : 127 < State.reset.cfg.memLen ∧ State.reset.cfg.memLen ≤ 128 := by decide
theorem witness_MemWriteContract :
    (at_ 0 48 [1, 2]).mem.wf = true ∧ 127 < (at_ 0 48 [1, 2]).cfg.memLen ∧ (at_ 0 48 [1, 2]).cfg.memLen ≤ 128 := by decide
theorem witness_CanonicalMemoriesWithEqualBytesAreEqual :
    Memory.wf [(0, 1#8), (127, 2#8)] = true ∧ ∀ a, Memory.read [(0, 1#8), (127, 2#8)] a = Memory.read [(0, 1#8), (127, 2#8)] a :=
  ⟨by decide, fun _ => rfl⟩
theorem witness_MemoryFrame :
    (at_ 60 1 [0x45, 7]).mem.wf = true ∧ storesToStack (.push 7) = true ∧
    nextIs (exec (.push 7) (at_ 60 1 [0x45, 7])) (fun t => t.sp == 0) = true ∧
    storesToStack (.pop 7) = false ∧ nextIs (exec (.pop 7) (at_ 12 47 [0x46, 7])) (fun t => t.sp == 48) = true := by decide
theorem witness_CellsAboveTheStackRegionNeverChange :
    (at_ 60 1 [0x45, 7]).Inv ∧ nextIs (step (at_ 60 1 [0x45, 7])) (fun _ => true) = true ∧
    (at_ 60 1 [0x45, 7]).cfg.spInit ≤ 48 :=
  ⟨inv_push, by decide, by decide⟩
theorem witness_PushedByteIsDecodedNext :
    ((at_ 45 48 [0x45, 0]).setReg 0 0xFF).Inv ∧ ((at_ 45 48 [0x45, 0]).setReg 0 0xFF).sp ≠ 0 ∧
    nextIs (exec (.push 0) ((at_ 45 48 [0x45, 0]).setReg 0 0xFF)) (fun t => t.pc == t.sp) = true ∧
    ((at_ 45 48 [0x45, 0]).setReg 0 0xFF).reg 0 ∉ Opc.default.bytes :=
  ⟨inv_at _ rfl (by decide) rfl (by decide) (by decide) rfl rfl, by decide, by decide, by decide⟩
/-- The operand byte 7 names the last register. -/
theorem witness_LdiResult : nextIs (exec (.ldi 7 255) (at_ 125 48 [])) (fun t => t.reg 7 == 255) = true ∧ (7#8).toNat < 8 := by
  decide
theorem witness_PrnResult : nextIs (exec (.prn 7) (at_ 126 48 [])) (fun t => t.out == [0]) = true ∧ (7#8).toNat < 8 := by
  decide
theorem witness_AddMulResult :
    nextIs (exec (.add 7 7) ((at_ 125 48 []).setReg 7 128)) (fun t => t.reg 7 == 0) = true ∧
    nextIs (exec (.mul 7 0) ((at_ 125 48 []).setReg 7 128)) (fun t => t.reg 7 == 0) = true ∧ (7#8).toNat < 8 := by decide
theorem witness_CmpResult :
    nextIs (exec (.cmp 0 7) ((at_ 125 48 []).setReg 7 255)) (fun t => t.fl == ⟨true, false, false⟩) = true ∧
    (7#8).toNat < 8 := by decide
theorem witness_JumpResults :
    nextIs (exec (.jmp 7) ((at_ 126 48 []).setReg 7 255)) (fun t => t.pc == 255) = true ∧ (7#8).toNat < 8 := by decide
theorem witness_PushResult : (at_ 60 1 [0x45, 7]).Inv ∧ (at_ 60 1 [0x45, 7]).sp ≠ 0 := ⟨inv_push, by decide⟩
theorem witness_PopResult :
    (at_ 12 47 [0x46, 7]).Inv ∧ (at_ 12 47 [0x46, 7]).sp.toNat ≠ (at_ 12 47 [0x46, 7]).cfg.spInit := ⟨inv_pop, by decide⟩
theorem witness_CallResult : (at_ 6 48 [0x50, 7]).Inv ∧ (at_ 6 48 [0x50, 7]).sp ≠ 0 := ⟨inv_call, by decide⟩
theorem witness_RetResult :
    (at_ 22 0 [0x11]).Inv ∧ (at_ 22 0 [0x11]).sp.toNat ≠ (at_ 22 0 [0x11]).cfg.spInit := ⟨inv_ret, by decide⟩
theorem witness_StackBoundFaults :
    (at_ 60 0 [0x45, 7]).sp = 0 ∧ (at_ 12 48 [0x46, 7]).sp.toNat = (at_ 12 48 [0x46, 7]).cfg.spInit := by decide
theorem witness_RegisterFrame :
    nextIs (exec (.ldi 0 9) (at_ 0 48 [])) (fun t => t.reg 7 == 0) = true ∧ destReg? (.ldi 0 9) = some 0 ∧
    (0#8).toNat ≠ (7 : Fin 8).val := by decide
theorem witness_SpecialStateFrame :
    nextIs (exec (.jmp 7) (at_ 0 48 [])) (fun t => t.fl == (at_ 0 48 []).fl) = true ∧ storesToStack (.jmp 7) = false ∧
    loadsFromStack (.jmp 7) = false ∧ Instr.jmp 7 ≠ .hlt := by decide
theorem witness_FlagsWrittenByCmpReadByJeqJne :
    (⟨true, true, false⟩ : Flags).eq = (at_ 0 48 []).fl.eq ∧ (∀ a, Instr.ret ≠ .jeq a) ∧ (∀ a, Instr.ret ≠ .jne a) :=
  ⟨rfl, fun _ => by simp, fun _ => by simp⟩
theorem witness_ExactlyOneFlagAfterComparison :
    nextIs (exec (.cmp 0 7) (at_ 125 48 [0xA7, 0, 7])) (fun t => t.fl == ⟨false, false, true⟩) = true ∧
    nextIs (step ((at_ 125 48 [0xA7, 0, 7]).setFlags ⟨true, false, false⟩)) (fun _ => true) = true ∧
    Flags.ExactlyOne ((at_ 125 48 [0xA7, 0, 7]).setFlags ⟨true, false, false⟩).fl ∧
    (at_ 125 48 [0xA7, 0, 7]).fl = ⟨false, false, false⟩ :=
  ⟨by decide, by decide, .inl rfl, rfl⟩
theorem witness_StackPointerMovesByOne :
    (at_ 12 47 [0x46, 7]).Inv ∧ nextIs (step (at_ 12 47 [0x46, 7])) (fun t => t.sp == 48) = true := ⟨inv_pop, by decide⟩
theorem witness_SequentialAdvanceDoesNotWrap :
    (at_ 125 48 [0xA7, 0, 7]).Inv ∧
    nextIs (step (at_ 125 48 [0xA7, 0, 7])) (fun t => t.run == .running && t.pc == 128) = true ∧
    fetchDecode (at_ 125 48 [0xA7, 0, 7]) = .instr (.cmp 0 7) [] ∧ isSequential (.cmp 0 7) = true ∧
    (at_ 6 48 [0x50, 7]).Inv ∧ nextIs (step (at_ 6 48 [0x50, 7])) (fun t => t.run == .running) = true ∧
    fetchDecode (at_ 6 48 [0x50, 7]) = .instr (.call 7) [0] :=
  ⟨inv_cmp, by decide, by decide, by decide, inv_call, by decide, by decide⟩
theorem witness_OutputIsAppendOnly : nextIs (step (at_ 126 48 [0x47, 7])) (fun t => t.out == [0]) = true := by decide
theorem witness_StackBalance : (at_ 60 2 [0x45, 7]).Inv ∧ 2 ≤ (at_ 60 2 [0x45, 7]).sp.toNat :=
  ⟨inv_at _ rfl (by decide) rfl (by decide) (by decide) rfl rfl, by decide⟩
/-- The state right after the CALL is one later state of the statement. -/
theorem witness_CallReturnBalance :
    (at_ 6 48 [0x50, 7]).Inv ∧ (at_ 6 48 [0x50, 7]).sp ≠ 0 ∧
    exec (.call 7) (at_ 6 48 [0x50, 7]) = .next (nextOr (exec (.call 7) (at_ 6 48 [0x50, 7])) State.reset) ∧
    (nextOr (exec (.call 7) (at_ 6 48 [0x50, 7])) State.reset).Inv :=
  ⟨inv_call, by decide, rfl, inv_at _ rfl (by decide) rfl (by decide) (by decide) rfl rfl⟩
theorem witness_TraceShowsExistingCells : 2 < 3 := by decide

end Sys2Proof.Tests
end

/-! ### The invariant at reset -/

namespace Sys2Proof.Machine

/-- R5, R28: with admissible parameters SP_INIT is below 256, so the 8-bit SP holds it exactly after reset. -/
theorem resetWith_sp_toNat {c : Config} (hc : c.Admissible) : (State.resetWith c).sp.toNat = c.spInit := by
  obtain ⟨hlen, hsp, -⟩ := hc
  exact (BitVec.toNat_ofNat ..).trans (Nat.mod_eq_of_lt (by omega))

/-- R38: the reset state of an admissible machine, field by field of the invariant. -/
theorem inv_resetWith {c : Config} (hc : c.Admissible) : (State.resetWith c).Inv where
  cfg := hc
  sp := (resetWith_sp_toNat hc).le
  flags := .inl rfl
  memWf := reset_mem_wf c
  memBelow := rfl
  runFits := rfl

/-- R5, R73, R74: the default parameters (log entries 2, 3) are admissible; the opcode bytes are a closed list. -/
theorem admissible_default : Config.default.Admissible := by decide

/-- Settles O10: the default parameters by evaluation, the reset state by the fields of the invariant. -/
theorem resetMeetsInvariant : Obligations.ResetMeetsInvariant :=
  ⟨admissible_default, fun _ => inv_resetWith⟩

end Sys2Proof.Machine

/-! ### What an instruction's meaning can do: the cause it stops with, or its committed effect -/

namespace Sys2Proof.Machine

/-- R140, R54: the cause a PUSH or CALL (a POP or RET) stops with at its stack access, once its registers are valid. -/
def stackStop? (s : State) (i : Instr) : Option Cause :=
  if storesToStack i = true then
    if s.sp = 0#8 then some (.stackOverflow s.pc)
    else if s.cfg.memLen ≤ pushAddr s then some (.addressOutOfRange (pushAddr s))
    else none
  else if loadsFromStack i = true then
    if s.sp.toNat = s.cfg.spInit then some (.stackUnderflow s.pc)
    else if s.cfg.memLen ≤ s.sp.toNat then some (.addressOutOfRange s.sp.toNat)
    else none
  else none

/-- R191: the cause a meaning stops with, if any: the register check comes before the stack access. -/
def stopCause? (s : State) (i : Instr) : Option Cause :=
  (i.invalidReg?.map Cause.invalidRegister).or (stackStop? s i)

/-- The state an instruction commits, with the guards under which it does (R110 to R163, R140). -/
inductive Commits (s : State) : Instr → State → Prop
  | ldi {a : Byte} (h : a.toNat < 8) (v : Byte) :
      Commits s (.ldi a v) ((s.setReg ⟨a.toNat, h⟩ v).advance 3)
  | prn {a : Byte} (h : a.toNat < 8) :
      Commits s (.prn a) ((s.emit (s.reg ⟨a.toNat, h⟩)).advance 2)
  | add {a b : Byte} (ha : a.toNat < 8) (hb : b.toNat < 8) :
      Commits s (.add a b)
        ((s.setReg ⟨a.toNat, ha⟩ (aluAdd (s.reg ⟨a.toNat, ha⟩) (s.reg ⟨b.toNat, hb⟩))).advance 3)
  | mul {a b : Byte} (ha : a.toNat < 8) (hb : b.toNat < 8) :
      Commits s (.mul a b)
        ((s.setReg ⟨a.toNat, ha⟩ (aluMul (s.reg ⟨a.toNat, ha⟩) (s.reg ⟨b.toNat, hb⟩))).advance 3)
  | cmp {a b : Byte} (ha : a.toNat < 8) (hb : b.toNat < 8) :
      Commits s (.cmp a b)
        ((s.setFlags (setFromComparison (s.reg ⟨a.toNat, ha⟩) (s.reg ⟨b.toNat, hb⟩))).advance 3)
  | push {a : Byte} (h : a.toNat < 8) (h0 : s.sp ≠ 0#8) (hm : pushAddr s < s.cfg.memLen) :
      Commits s (.push a) ((pushed (s.reg ⟨a.toNat, h⟩) s).advance 2)
  | pop {a : Byte} (h : a.toNat < 8) (h0 : s.sp.toNat ≠ s.cfg.spInit) (hm : s.sp.toNat < s.cfg.memLen) :
      Commits s (.pop a) (((s.setSp (s.sp + 1#8)).setReg ⟨a.toNat, h⟩ (s.mem.read s.sp.toNat)).advance 2)
  | call {a : Byte} (h : a.toNat < 8) (h0 : s.sp ≠ 0#8) (hm : pushAddr s < s.cfg.memLen) :
      Commits s (.call a) ((pushed (returnAddr s) s).setPc (s.reg ⟨a.toNat, h⟩))
  | ret (h0 : s.sp.toNat ≠ s.cfg.spInit) (hm : s.sp.toNat < s.cfg.memLen) :
      Commits s .ret ((s.setSp (s.sp + 1#8)).setPc (s.mem.read s.sp.toNat))
  | jmp {a : Byte} (h : a.toNat < 8) : Commits s (.jmp a) (s.setPc (s.reg ⟨a.toNat, h⟩))
  | jeq {a : Byte} (h : a.toNat < 8) :
      Commits s (.jeq a) (s.setPc (if isEqual s = true then s.reg ⟨a.toNat, h⟩ else s.pc + 2#8))
  | jne {a : Byte} (h : a.toNat < 8) :
      Commits s (.jne a) (s.setPc (if (!isEqual s) = true then s.reg ⟨a.toNat, h⟩ else s.pc + 2#8))
  | hlt : Commits s .hlt ((s.setPc 0#8).setRun .haltHlt)

/-! The register check of an instruction, by its list of register operands (R76, R94). -/

theorem invalidReg?_of_first {i : Instr} {a : Byte} {bs : List Byte} (hi : i.regOperands = a :: bs)
    (ha : 8 ≤ a.toNat) : i.invalidReg? = some a := by
  rw [Instr.invalidReg?, hi]
  exact List.find?_cons_of_pos ((not_isRegByte_iff a).2 ha)

theorem invalidReg?_of_second {i : Instr} {a b : Byte} {bs : List Byte} (hi : i.regOperands = a :: b :: bs)
    (ha : a.toNat < 8) (hb : 8 ≤ b.toNat) : i.invalidReg? = some b := by
  rw [Instr.invalidReg?, hi, List.find?_cons_of_neg (by simpa using (isRegByte_iff a).2 ha)]
  exact List.find?_cons_of_pos ((not_isRegByte_iff b).2 hb)

theorem wellFormed_iff {i : Instr} : WellFormed i ↔ ∀ b ∈ i.regOperands, b.toNat < 8 := by
  simp only [WellFormed, List.all_eq_true, isRegByte_iff]

theorem wellFormed_of_one {i : Instr} {a : Byte} (hi : i.regOperands = [a]) (ha : a.toNat < 8) : WellFormed i := by
  rw [wellFormed_iff, hi]; simpa using ha

/-! The stack access of an instruction, by the direction it moves SP (R140). -/

section
variable {s : State} {i : Instr}

theorem stackStop?_overflow (hi : storesToStack i = true) (h0 : s.sp = 0#8) :
    stackStop? s i = some (.stackOverflow s.pc) := by
  rw [stackStop?, if_pos hi, if_pos h0]

theorem stackStop?_store_outside (hi : storesToStack i = true) (h0 : s.sp ≠ 0#8) (hm : s.cfg.memLen ≤ pushAddr s) :
    stackStop? s i = some (.addressOutOfRange (pushAddr s)) := by
  rw [stackStop?, if_pos hi, if_neg h0, if_pos hm]

theorem stackStop?_store_inside (hi : storesToStack i = true) (h0 : s.sp ≠ 0#8) (hm : pushAddr s < s.cfg.memLen) :
    stackStop? s i = none := by
  rw [stackStop?, if_pos hi, if_neg h0, if_neg (by omega)]

/-- No instruction both pushes and pops (R54). -/
theorem not_storesToStack (hi : loadsFromStack i = true) : ¬ storesToStack i = true := by
  cases i <;> simp_all [loadsFromStack, storesToStack]

theorem stackStop?_underflow (hi : loadsFromStack i = true) (h0 : s.sp.toNat = s.cfg.spInit) :
    stackStop? s i = some (.stackUnderflow s.pc) := by
  rw [stackStop?, if_neg (not_storesToStack hi), if_pos hi, if_pos h0]

theorem stackStop?_load_outside (hi : loadsFromStack i = true) (h0 : s.sp.toNat ≠ s.cfg.spInit)
    (hm : s.cfg.memLen ≤ s.sp.toNat) : stackStop? s i = some (.addressOutOfRange s.sp.toNat) := by
  rw [stackStop?, if_neg (not_storesToStack hi), if_pos hi, if_neg h0, if_pos hm]

theorem stackStop?_load_inside (hi : loadsFromStack i = true) (h0 : s.sp.toNat ≠ s.cfg.spInit)
    (hm : s.sp.toNat < s.cfg.memLen) : stackStop? s i = none := by
  rw [stackStop?, if_neg (not_storesToStack hi), if_pos hi, if_neg h0, if_neg (by omega)]

/-- A stack access stops in one of four ways (R140; the two out of range are met in no run, log entry 11). -/
theorem stackStop?_cases {c : Cause} (h : stackStop? s i = some c) :
    (storesToStack i = true ∧ s.sp = 0#8 ∧ c = .stackOverflow s.pc) ∨
    (storesToStack i = true ∧ s.sp ≠ 0#8 ∧ s.cfg.memLen ≤ pushAddr s ∧ c = .addressOutOfRange (pushAddr s)) ∨
    (loadsFromStack i = true ∧ s.sp.toNat = s.cfg.spInit ∧ c = .stackUnderflow s.pc) ∨
    (loadsFromStack i = true ∧ s.sp.toNat ≠ s.cfg.spInit ∧ s.cfg.memLen ≤ s.sp.toNat ∧
      c = .addressOutOfRange s.sp.toNat) := by
  unfold stackStop? at h
  split_ifs at h with hs h0 hm hl h0 hm
  · exact .inl ⟨hs, h0, (Option.some.inj h).symm⟩
  · exact .inr (.inl ⟨hs, h0, hm, (Option.some.inj h).symm⟩)
  · exact .inr (.inr (.inl ⟨hl, h0, (Option.some.inj h).symm⟩))
  · exact .inr (.inr (.inr ⟨hl, h0, hm, (Option.some.inj h).symm⟩))

end

theorem stopCause?_of_invalidReg (s : State) {i : Instr} {b : Byte} (h : i.invalidReg? = some b) :
    stopCause? s i = some (.invalidRegister b) := by
  rw [stopCause?, h]; rfl

theorem stopCause?_of_wellFormed (s : State) {i : Instr} (h : WellFormed i) :
    stopCause? s i = stackStop? s i := by
  rw [stopCause?, invalidReg?_eq_none.2 h]; rfl

/-- What a stop's cause is: the first invalid register byte, or the stack access's cause. -/
theorem stopCause?_cases {s : State} {i : Instr} {c : Cause} (h : stopCause? s i = some c) :
    (∃ b, i.invalidReg? = some b ∧ c = .invalidRegister b) ∨ stackStop? s i = some c := by
  cases hr : i.invalidReg? with
  | none => exact .inr (by rwa [stopCause?, hr] at h)
  | some b =>
    rw [stopCause?_of_invalidReg s hr] at h
    exact .inl ⟨b, rfl, (Option.some.inj h).symm⟩

/-! The two forms an outcome takes, and what makes it one of them. -/

/-- What a meaning answers: its stop's cause taken in the state before it, or its committed effect (R97, R193). -/
def Answers (s : State) (i : Instr) : Prop :=
  (∃ c, stopCause? s i = some c ∧ exec i s = .next (s.raise c)) ∨
  (stopCause? s i = none ∧ ∃ t, exec i s = .next t ∧ Commits s i t)

theorem answers_of_invalidReg {s : State} {i : Instr} {b : Byte} (h : i.invalidReg? = some b)
    (he : exec i s = .next (s.raise (.invalidRegister b))) : Answers s i :=
  .inl ⟨_, stopCause?_of_invalidReg s h, he⟩

theorem answers_of_stackStop {s : State} {i : Instr} {c : Cause} (hw : WellFormed i)
    (hc : stackStop? s i = some c) (he : exec i s = .next (s.raise c)) : Answers s i :=
  .inl ⟨c, (stopCause?_of_wellFormed s hw).trans hc, he⟩

/-- What commits is well-formed: every register operand was checked (R23, R76). -/
theorem Commits.wellFormed {s t : State} {i : Instr} (h : Commits s i t) : WellFormed i := by
  rw [wellFormed_iff]
  cases h <;> simp_all [Instr.regOperands]

/-- What commits meets no stack bound. -/
theorem Commits.stackStop?_eq_none {s t : State} {i : Instr} (h : Commits s i t) : stackStop? s i = none := by
  cases h with
  | push _ h0 hm => exact stackStop?_store_inside rfl h0 hm
  | call _ h0 hm => exact stackStop?_store_inside rfl h0 hm
  | pop _ h0 hm => exact stackStop?_load_inside rfl h0 hm
  | ret h0 hm => exact stackStop?_load_inside rfl h0 hm
  | _ => rfl

theorem answers_of_commits {s t : State} {i : Instr} (he : exec i s = .next t) (h : Commits s i t) : Answers s i :=
  .inr ⟨(stopCause?_of_wellFormed s h.wellFormed).trans h.stackStop?_eq_none, t, he, h⟩

/-- ADD, MUL and CMP share their register check: with it passed, what the ALU leaves is committed. -/
theorem answers_of_aluInstr {s : State} {i : Instr} {op : AluOp} {a b : Byte} (hi : i.regOperands = [a, b])
    (he : exec i s = commit s (aluInstr op a b s))
    (hc : ∀ (ha : a.toNat < 8) (hb : b.toNat < 8), Commits s i ((alu op ⟨a.toNat, ha⟩ ⟨b.toNat, hb⟩ s).advance 3)) :
    Answers s i := by
  rcases aluInstr_cases s op a b with ⟨ha, hr⟩ | ⟨ha, hb, hr⟩ | ⟨ha, hb, hr⟩
  · exact answers_of_invalidReg (invalidReg?_of_first hi ha) (by rw [he, hr]; rfl)
  · exact answers_of_invalidReg (invalidReg?_of_second hi ha hb) (by rw [he, hr]; rfl)
  · exact answers_of_commits (by rw [he, hr]; rfl) (hc ha hb)

/-- The next PC of a conditional jump, as one choice of its target (R161, R162). -/
theorem setPc_ite (p : Prop) [Decidable p] (target : Byte) (s : State) :
    s.setPc (if p then target else s.pc + 2#8) = if p then s.setPc target else s.advance 2 :=
  apply_ite s.setPc p target (s.pc + 2#8)

/-- JMP, JEQ and JNE share theirs too. -/
theorem answers_of_jumpIf {s : State} {i : Instr} {taken : Bool} {a : Byte} (hi : i.regOperands = [a])
    (he : exec i s = commit s (jumpIf taken a s))
    (hc : ∀ h : a.toNat < 8,
      Commits s i (if taken = true then s.setPc (s.reg ⟨a.toNat, h⟩) else s.advance 2)) :
    Answers s i := by
  rcases jumpIf_cases s taken a with ⟨h, hr⟩ | ⟨h, hr⟩
  · exact answers_of_invalidReg (invalidReg?_of_first hi h) (by rw [he, hr]; rfl)
  · exact answers_of_commits (by rw [he, hr]; rfl) (hc h)

/-- Inversion of `exec` over all 13 instructions: every meaning answers a next state, its stop or its effect. -/
theorem exec_answers (s : State) (i : Instr) : Answers s i := by
  cases i with
  | ldi a v =>
    rcases execLdi_cases s a v with ⟨h, he⟩ | ⟨h, he⟩
    · exact answers_of_invalidReg (invalidReg?_of_first rfl h) he
    · exact answers_of_commits he (.ldi h v)
  | prn a =>
    rcases execPrn_cases s a with ⟨h, he⟩ | ⟨h, he⟩
    · exact answers_of_invalidReg (invalidReg?_of_first rfl h) he
    · exact answers_of_commits he (.prn h)
  | add a b => exact answers_of_aluInstr rfl rfl .add
  | mul a b => exact answers_of_aluInstr rfl rfl .mul
  | cmp a b => exact answers_of_aluInstr rfl rfl .cmp
  | push a =>
    rcases execPush_cases s a with ⟨h, he⟩ | ⟨h, h0, he⟩ | ⟨h, h0, hm, he⟩ | ⟨h, h0, hm, he⟩
    · exact answers_of_invalidReg (invalidReg?_of_first rfl h) he
    · exact answers_of_stackStop (wellFormed_of_one rfl h) (stackStop?_overflow rfl h0) he
    · exact answers_of_stackStop (wellFormed_of_one rfl h) (stackStop?_store_outside rfl h0 hm) he
    · exact answers_of_commits he (.push h h0 hm)
  | pop a =>
    rcases execPop_cases s a with ⟨h, he⟩ | ⟨h, h0, he⟩ | ⟨h, h0, hm, he⟩ | ⟨h, h0, hm, he⟩
    · exact answers_of_invalidReg (invalidReg?_of_first rfl h) he
    · exact answers_of_stackStop (wellFormed_of_one rfl h) (stackStop?_underflow rfl h0) he
    · exact answers_of_stackStop (wellFormed_of_one rfl h) (stackStop?_load_outside rfl h0 hm) he
    · exact answers_of_commits he (.pop h h0 hm)
  | call a =>
    rcases execCall_cases s a with ⟨h, he⟩ | ⟨h, h0, he⟩ | ⟨h, h0, hm, he⟩ | ⟨h, h0, hm, he⟩
    · exact answers_of_invalidReg (invalidReg?_of_first rfl h) he
    · exact answers_of_stackStop (wellFormed_of_one rfl h) (stackStop?_overflow rfl h0) he
    · exact answers_of_stackStop (wellFormed_of_one rfl h) (stackStop?_store_outside rfl h0 hm) he
    · exact answers_of_commits he (.call h h0 hm)
  | ret =>
    rcases execRet_cases s with ⟨h0, he⟩ | ⟨h0, hm, he⟩ | ⟨h0, hm, he⟩
    · exact answers_of_stackStop rfl (stackStop?_underflow rfl h0) he
    · exact answers_of_stackStop rfl (stackStop?_load_outside rfl h0 hm) he
    · exact answers_of_commits he (.ret h0 hm)
  | jmp a => exact answers_of_jumpIf rfl rfl .jmp
  | jeq a =>
    refine answers_of_jumpIf (taken := isEqual s) rfl rfl fun h => ?_
    rw [← setPc_ite]
    exact .jeq h
  | jne a =>
    refine answers_of_jumpIf (taken := !isEqual s) rfl rfl fun h => ?_
    rw [← setPc_ite]
    exact .jne h
  | hlt => exact answers_of_commits (execHlt_eq s) .hlt

/-- The same, for a given next state. -/
theorem exec_cases {s t : State} {i : Instr} (h : exec i s = .next t) :
    (∃ c, stopCause? s i = some c ∧ t = s.raise c) ∨ (stopCause? s i = none ∧ Commits s i t) := by
  rcases exec_answers s i with ⟨c, hc, he⟩ | ⟨hc, u, he, hu⟩ <;> cases he.symm.trans h
  · exact .inl ⟨c, hc, rfl⟩
  · exact .inr ⟨hc, hu⟩

/-- Every meaning answers a next state (R193: a fatal condition is one too). -/
theorem exec_next (i : Instr) (s : State) : ∃ t, exec i s = .next t := by
  rcases exec_answers s i with ⟨c, -, he⟩ | ⟨-, t, he, -⟩
  · exact ⟨_, he⟩
  · exact ⟨t, he⟩

/-- A stop's cause, where there is one, is what the meaning answers. -/
theorem exec_of_stopCause? {s : State} {i : Instr} {c : Cause} (h : stopCause? s i = some c) :
    exec i s = .next (s.raise c) := by
  obtain ⟨t, ht⟩ := exec_next i s
  rcases exec_cases ht with ⟨d, hd, rfl⟩ | ⟨hn, -⟩
  · cases h.symm.trans hd; exact ht
  · cases h.symm.trans hn

/-- Settles O22: the register check is the first cause a meaning can stop with. -/
theorem execChecksRegisterOperands : Obligations.ExecChecksRegisterOperands :=
  fun s _ _ h => exec_of_stopCause? (stopCause?_of_invalidReg s h)

end Sys2Proof.Machine

/-! ### Frames of a committed instruction: each element of the state, and which instruction may change it -/

namespace Sys2Proof.Machine

section
variable {s t : State} {i : Instr}

theorem Commits.cfg_eq (h : Commits s i t) : t.cfg = s.cfg := by cases h <;> rfl

theorem Commits.diag_eq (h : Commits s i t) : t.diag = s.diag := by cases h <;> rfl

/-- R22: the register written is the one `destReg?` names. -/
theorem Commits.reg_eq (h : Commits s i t) {r : Fin 8} (hr : ∀ b, destReg? i = some b → b.toNat ≠ r.val) :
    t.reg r = s.reg r := by
  have hne {a : Byte} (ha : a.toNat < 8) (hi : destReg? i = some a) : (⟨a.toNat, ha⟩ : Fin 8) ≠ r :=
    fun he => hr a hi (congrArg Fin.val he)
  cases h with
  | ldi ha v => simp [hne ha rfl]
  | add ha hb => simp [hne ha rfl]
  | mul ha hb => simp [hne ha rfl]
  | pop ha h0 hm => simp [hne ha rfl]
  | _ => rfl

/-- R30: the comparison sets exactly one flag. -/
theorem setFromComparison_exactlyOne (a b : Byte) : (setFromComparison a b).ExactlyOne := by
  unfold setFromComparison
  split_ifs
  · exact .inl rfl
  · exact .inr (.inl rfl)
  · exact .inr (.inr rfl)

/-- R30, R31: CMP alone writes the flags, and it leaves exactly one set. -/
theorem Commits.fl_cases (h : Commits s i t) :
    t.fl = s.fl ∨ ((∃ a b, i = .cmp a b) ∧ t.fl.ExactlyOne) := by
  cases h with
  | cmp ha hb => exact .inr ⟨⟨_, _, rfl⟩, setFromComparison_exactlyOne _ _⟩
  | _ => exact .inl rfl

/-- R28: SP moves by one, each way under its guard. -/
theorem Commits.sp_cases (h : Commits s i t) :
    t.sp = s.sp ∨
    (storesToStack i = true ∧ s.sp ≠ 0#8 ∧ t.sp = s.sp - 1#8) ∨
    (loadsFromStack i = true ∧ s.sp.toNat ≠ s.cfg.spInit ∧ t.sp = s.sp + 1#8) := by
  cases h with
  | push _ h0 _ => exact .inr (.inl ⟨rfl, h0, rfl⟩)
  | call _ h0 _ => exact .inr (.inl ⟨rfl, h0, rfl⟩)
  | pop _ h0 _ => exact .inr (.inr ⟨rfl, h0, rfl⟩)
  | ret h0 _ => exact .inr (.inr ⟨rfl, h0, rfl⟩)
  | _ => exact .inl rfl

/-- R54: memory changes only by one store inside it. -/
theorem Commits.mem_cases (h : Commits s i t) :
    t.mem = s.mem ∨ (pushAddr s < s.cfg.memLen ∧ ∃ v, t.mem = s.mem.write (pushAddr s) v) := by
  cases h with
  | push _ _ hm => exact .inr ⟨hm, _, rfl⟩
  | call _ _ hm => exact .inr ⟨hm, _, rfl⟩
  | _ => exact .inl rfl

/-- R34: the output grows only by the register PRN names. -/
theorem Commits.out_cases (h : Commits s i t) :
    t.out = s.out ∨ ∃ (a : Byte) (ha : a.toNat < 8), i = .prn a ∧ t.out = s.out ++ [s.reg ⟨a.toNat, ha⟩] := by
  cases h with
  | prn ha => exact .inr ⟨_, ha, rfl, rfl⟩
  | _ => exact .inl rfl

/-- R33, R163: the run ends only by HLT, with `pc` 0. -/
theorem Commits.run_cases (h : Commits s i t) : t.run = s.run ∨ (i = .hlt ∧ t.run = .haltHlt ∧ t.pc = 0) := by
  cases h with
  | hlt => exact .inr ⟨rfl, rfl, rfl⟩
  | _ => exact .inl rfl

/-- R25: a sequential instruction advances by its length. -/
theorem Commits.pc_of_isSequential (h : Commits s i t) (hi : isSequential i = true) :
    t.pc = s.pc + BitVec.ofNat 8 i.length := by
  cases h with
  | call _ _ _ => cases hi
  | ret _ _ => cases hi
  | jmp _ => cases hi
  | jeq _ => cases hi
  | jne _ => cases hi
  | hlt => cases hi
  | _ => rfl

/-- R31: what commits is the same with other flags, where `i` reads none of them or EQUAL agrees. -/
theorem Commits.sameButFlags {f : Flags} {u : State} (h : Commits s i t) (hu : Commits (s.setFlags f) i u)
    (hf : f.eq = s.fl.eq ∨ ((∀ a, i ≠ .jeq a) ∧ ∀ a, i ≠ .jne a)) : t.SameButFlags u := by
  have heq (hj : (∃ a, i = .jeq a) ∨ ∃ a, i = .jne a) : isEqual (s.setFlags f) = isEqual s :=
    hf.resolve_right fun hn => hj.elim (fun ⟨a, ha⟩ => hn.1 a ha) fun ⟨a, ha⟩ => hn.2 a ha
  cases h with
  | jeq _ => cases hu; rw [heq (.inl ⟨_, rfl⟩)]; rfl
  | jne _ => cases hu; rw [heq (.inr ⟨_, rfl⟩)]; rfl
  | _ => cases hu; rfl

end

/-- R31: a stop reads no flag. -/
theorem stopCause?_setFlags (s : State) (f : Flags) (i : Instr) : stopCause? (s.setFlags f) i = stopCause? s i := rfl

/-- Settles O43: a stop changes no register, a commit only its destination. -/
theorem registerFrame : Obligations.RegisterFrame := by
  intro i s t r h hr
  rcases exec_cases h with ⟨c, -, rfl⟩ | ⟨-, hc⟩
  · rfl
  · exact hc.reg_eq hr

/-- R31, first half: only CMP changes the flags. -/
theorem exec_fl_of_not_cmp {i : Instr} {s t : State} (h : exec i s = .next t) (hi : ∀ a b, i ≠ .cmp a b) :
    t.fl = s.fl := by
  rcases exec_cases h with ⟨c, -, rfl⟩ | ⟨-, hc⟩
  · rfl
  · exact hc.fl_cases.resolve_right fun ⟨⟨a, b, he⟩, _⟩ => hi a b he

/-- Settles O44: a stop changes `run` alone, and a commit each element only under its own instruction. -/
theorem specialStateFrame : Obligations.SpecialStateFrame := by
  intro i s t h
  rcases exec_cases h with ⟨c, -, rfl⟩ | ⟨-, hc⟩
  · exact ⟨rfl, rfl, fun _ => rfl, fun _ _ => rfl, fun _ => rfl, fun _ => .inr ⟨c, rfl⟩⟩
  · refine ⟨hc.cfg_eq, hc.diag_eq, exec_fl_of_not_cmp h, fun hs hl => ?_, fun hp => ?_, fun hh => .inl ?_⟩
    · rcases hc.sp_cases with hsp | ⟨hi, -⟩ | ⟨hi, -⟩
      · exact hsp
      · cases hs.symm.trans hi
      · cases hl.symm.trans hi
    · exact hc.out_cases.resolve_right fun ⟨a, _, ha, _⟩ => hp a ha
    · exact hc.run_cases.resolve_right fun ⟨hi, _⟩ => hh hi

/-- R31, second half: two runs that differ in flags an instruction does not read stay the same but for flags. -/
theorem exec_setFlags {i : Instr} {s : State} {f : Flags}
    (hf : f.eq = s.fl.eq ∨ ((∀ a, i ≠ .jeq a) ∧ ∀ a, i ≠ .jne a)) :
    ∃ t u, exec i s = .next t ∧ exec i (s.setFlags f) = .next u ∧ t.SameButFlags u := by
  obtain ⟨t, ht⟩ := exec_next i s
  obtain ⟨u, hu⟩ := exec_next i (s.setFlags f)
  refine ⟨t, u, ht, hu, ?_⟩
  rcases exec_cases ht with ⟨c, hc, rfl⟩ | ⟨hc, ht'⟩ <;> rcases exec_cases hu with ⟨d, hd, rfl⟩ | ⟨hd, hu'⟩ <;>
    rw [stopCause?_setFlags, hc] at hd
  · cases hd; rfl
  · cases hd
  · cases hd
  · exact ht'.sameButFlags hu' hf

/-- Settles O45: the flags' writer, the flags' readers, and the flags view. -/
theorem flagsWrittenByCmpReadByJeqJne : Obligations.FlagsWrittenByCmpReadByJeqJne :=
  ⟨fun _ _ _ => exec_fl_of_not_cmp, fun _ _ _ => exec_setFlags, fun _ => ⟨rfl, rfl, rfl⟩⟩

end Sys2Proof.Machine

/-! ### What the decoder and the fetch can answer -/

namespace Sys2Proof

/-- What `decode` says of an opcode byte and the bytes after it, in the order of its checks (R90). -/
theorem decode_cases (o : Opc) (b : Byte) (rest : List Byte) :
    (lookup o b = none ∧ decode o (b :: rest) = .unrecognized b) ∨
    ∃ row, lookup o b = some row ∧
      ((rest.length < row.kinds.length ∧ decode o (b :: rest) = .missing (1 + rest.length)) ∨
       (row.kinds.length ≤ rest.length ∧
        ((∃ r, (assemble row.op (rest.getD 0 0) (rest.getD 1 0)).invalidReg? = some r ∧
            decode o (b :: rest) = .invalidRegister r) ∨
          decode o (b :: rest) =
            .instr (assemble row.op (rest.getD 0 0) (rest.getD 1 0)) (rest.drop row.kinds.length)))) := by
  cases hrow : lookup o b with
  | none => exact .inl ⟨rfl, by simp only [decode, hrow]⟩
  | some row =>
    refine .inr ⟨row, rfl, ?_⟩
    rcases Nat.lt_or_ge rest.length row.kinds.length with hlt | hge
    · exact .inl ⟨hlt, by simp only [decode, hrow, if_pos hlt]⟩
    · refine .inr ⟨hge, ?_⟩
      cases hr : (assemble row.op (rest.getD 0 0) (rest.getD 1 0)).invalidReg? with
      | some r => exact .inl ⟨r, rfl, by simp only [decode, hrow, if_neg hge.not_gt, hr]⟩
      | none => exact .inr (by simp only [decode, hrow, if_neg hge.not_gt, hr])

/-- An instruction assembled on a row of the table is as long as the row says (R72). -/
theorem length_assemble {o : Opc} {b : Byte} {row : Row} (h : lookup o b = some row) (x y : Byte) :
    (assemble row.op x y).length = 1 + row.kinds.length := by
  rw [Instr.length, operands_length o, op_assemble, ← (lookup_cases h).1]

/-- What each answer of the decoder says of the bytes `bs` it was given: an instruction fits them (R72), an unrecognized
byte has no row (R78), a missing byte is the first after them and one of three (R91, R93), a register byte refused is above 7
(R76). -/
def Decoded.Says (o : Opc) (bs : List Byte) : Decoded → Prop
  | .instr i _ => i.length ≤ bs.length
  | .unrecognized op => lookup o op = none
  | .missing k => bs.length = k ∧ k ≤ 2
  | .invalidRegister b => 8 ≤ b.toNat

theorem decode_says (o : Opc) (bs : List Byte) : (decode o bs).Says o bs := by
  cases bs with
  | nil => exact ⟨rfl, by omega⟩
  | cons b rest =>
    rcases decode_cases o b rest with ⟨hn, hd⟩ | ⟨row, hrow, ⟨hlt, hd⟩ | ⟨hge, ⟨r, hr, hd⟩ | hd⟩⟩ <;> rw [hd]
    · exact hn
    · have hkinds : row.kinds.length ≤ 2 := by
        rw [(lookup_cases hrow).1]; exact rowOf_kinds_length o row.op
      exact ⟨by rw [List.length_cons]; omega, by omega⟩
    · exact (invalidReg?_spec hr).1
    · show (assemble row.op _ _).length ≤ _
      rw [length_assemble hrow, List.length_cons]; omega

end Sys2Proof

namespace Sys2Proof.Machine

/-- The bytes looked at are as many as there are cells (R93). -/
theorem length_bytesFrom (len : Nat) (m : Memory) (a n : Nat) : (bytesFrom len m a n).length = min n (len - a) := by
  induction n generalizing a with
  | zero => simp [bytesFrom]
  | succ n ih =>
    rw [bytesFrom]
    split
    · rw [List.length_cons, ih]; omega
    · rw [List.length_nil]; omega

theorem length_fetchBytes (s : State) : (fetchBytes s).length = min 3 (s.cfg.memLen - s.pc.toNat) :=
  length_bytesFrom ..

/-- What was fetched, as the decoder says it of the bytes at `pc`. -/
theorem says_of_fetchDecode {s : State} {d : Decoded} (h : fetchDecode s = d) : d.Says s.cfg.opc (fetchBytes s) :=
  h ▸ decode_says s.cfg.opc (fetchBytes s)

/-- R26, R93: an instruction that was fetched lies inside memory. -/
theorem pc_add_length_le {s : State} {i : Instr} {rest : List Byte} (h : fetchDecode s = .instr i rest) :
    s.pc.toNat + i.length ≤ s.cfg.memLen := by
  have hlen : i.length ≤ (fetchBytes s).length := says_of_fetchDecode h
  have hpos : 1 ≤ i.length := Nat.le_add_right ..
  rw [length_fetchBytes] at hlen
  omega

/-- R91, R93: a missing byte is one of the three from `pc`, outside memory. -/
theorem missing_bounds {s : State} {k : Nat} (h : fetchDecode s = .missing k) :
    s.cfg.memLen ≤ s.pc.toNat + k ∧ k ≤ 2 := by
  obtain ⟨hlen, hk⟩ := says_of_fetchDecode h
  rw [length_fetchBytes] at hlen
  omega

end Sys2Proof.Machine

/-! ### What a step can do -/

namespace Sys2Proof.Machine

/-- The causes a step ends the run with: a byte outside memory, a register byte refused at decode, or the instruction's own
stop (R91, R93, R94, R191). -/
def StepStops (s : State) (c : Cause) : Prop :=
  (∃ k, fetchDecode s = .missing k ∧ c = .addressOutOfRange (s.pc.toNat + k)) ∨
  (∃ b, fetchDecode s = .invalidRegister b ∧ c = .invalidRegister b) ∨
  (∃ i rest, fetchDecode s = .instr i rest ∧ stopCause? s i = some c)

/-! R90: a running state's step, by what was fetched. -/

section
variable {s : State} (hr : s.run = .running)
include hr

theorem step_of_instr {i : Instr} {rest : List Byte} (hd : fetchDecode s = .instr i rest) : step s = exec i s := by
  simp only [step, hr, hd]

theorem step_of_unrecognized {op : Byte} (hd : fetchDecode s = .unrecognized op) :
    step s = .next (s.unrecognized op) := by
  simp only [step, hr, hd]

theorem step_of_missing {k : Nat} (hd : fetchDecode s = .missing k) :
    step s = .next (s.raise (.addressOutOfRange (s.pc.toNat + k))) := by
  simp only [step, hr, hd, missingByte]

theorem step_of_invalidRegister {b : Byte} (hd : fetchDecode s = .invalidRegister b) :
    step s = .next (s.raise (.invalidRegister b)) := by
  simp only [step, hr, hd, invalidOperand]

theorem step_next : ∃ t, step s = .next t := by
  cases hd : fetchDecode s with
  | instr i rest => rw [step_of_instr hr hd]; exact exec_next i s
  | unrecognized op => exact ⟨_, step_of_unrecognized hr hd⟩
  | missing k => exact ⟨_, step_of_missing hr hd⟩
  | invalidRegister b => exact ⟨_, step_of_invalidRegister hr hd⟩

end

/-- R98: the core has a step only in RUN. -/
theorem running_of_step {s t : State} (h : step s = .next t) : s.run = .running := by
  cases hr : s.run with
  | running => rfl
  | _ => simp [step, hr] at h

/-- Inversion of `step`: a commit of the instruction fetched, the unrecognized-opcode halt, or a fault taken. -/
theorem step_cases {s t : State} (h : step s = .next t) :
    (∃ i rest, fetchDecode s = .instr i rest ∧ Commits s i t) ∨
    (∃ op, fetchDecode s = .unrecognized op ∧ t = s.unrecognized op) ∨
    ∃ c, StepStops s c ∧ t = s.raise c := by
  have hr := running_of_step h
  cases hd : fetchDecode s with
  | instr i rest =>
    rw [step_of_instr hr hd] at h
    rcases exec_cases h with ⟨c, hc, ht⟩ | ⟨-, hc⟩
    · exact .inr (.inr ⟨c, .inr (.inr ⟨i, rest, hd, hc⟩), ht⟩)
    · exact .inl ⟨i, rest, rfl, hc⟩
  | unrecognized op =>
    cases (step_of_unrecognized hr hd).symm.trans h
    exact .inr (.inl ⟨op, rfl, rfl⟩)
  | missing k =>
    cases (step_of_missing hr hd).symm.trans h
    exact .inr (.inr ⟨_, .inl ⟨k, hd, rfl⟩, rfl⟩)
  | invalidRegister b =>
    cases (step_of_invalidRegister hr hd).symm.trans h
    exact .inr (.inr ⟨_, .inr (.inl ⟨b, hd, rfl⟩), rfl⟩)

/-- Settles O17: RUN always has a step, and every other run state its own stop. -/
theorem stopsAreNamedByRunState : Obligations.StopsAreNamedByRunState := by
  intro s
  cases hr : s.run with
  | running =>
    obtain ⟨t, ht⟩ := step_next hr
    simp [ht]
  | _ => simp [step, hr]

/-- R30, R31: a step leaves the flags, or it ran a CMP, which leaves exactly one set. -/
theorem step_fl_cases {s t : State} (h : step s = .next t) :
    t.fl = s.fl ∨ (t.fl.ExactlyOne ∧ ∃ a b rest, fetchDecode s = .instr (.cmp a b) rest) := by
  rcases step_cases h with ⟨i, rest, hd, hc⟩ | ⟨op, -, rfl⟩ | ⟨c, -, rfl⟩
  · rcases hc.fl_cases with hfl | ⟨⟨a, b, rfl⟩, hone⟩
    · exact .inl hfl
    · exact .inr ⟨hone, a, b, rest, hd⟩
  · exact .inl rfl
  · exact .inl rfl

/-- R126: a CMP of two registers sets exactly one flag. -/
theorem exactlyOne_of_exec_cmp {s t : State} {a b : Byte} (ha : a.toNat < 8) (hb : b.toNat < 8)
    (h : exec (.cmp a b) s = .next t) : t.fl.ExactlyOne := by
  have hw : WellFormed (.cmp a b) := wellFormed_iff.2 (by simp [Instr.regOperands, ha, hb])
  rcases exec_cases h with ⟨c, hc, -⟩ | ⟨-, hc⟩
  · cases (stopCause?_of_wellFormed s hw).symm.trans hc
  · cases hc; exact setFromComparison_exactlyOne _ _

/-- Settles O46: by the CMP case and by what a step does to the flags. -/
theorem exactlyOneFlagAfterComparison : Obligations.ExactlyOneFlagAfterComparison := by
  refine ⟨rfl, fun _ _ _ _ => exactlyOne_of_exec_cmp, fun s t h hs => ?_, fun s t h hs => ?_⟩
  · rcases step_fl_cases h with hfl | ⟨hone, -⟩
    · exact hfl ▸ hs
    · exact hone
  · exact (step_fl_cases h).imp (fun hfl => hfl.trans hs) id

/-- Settles O49: by what a step can do, PRN's commit and the unrecognized-opcode halt apart. -/
theorem outputIsAppendOnly : Obligations.OutputIsAppendOnly := by
  intro s t h
  rcases step_cases h with ⟨i, rest, hd, hc⟩ | ⟨op, -, rfl⟩ | ⟨c, -, rfl⟩
  · refine ⟨?_, .inl hc.diag_eq⟩
    rcases hc.out_cases with ho | ⟨a, ha, rfl, ho⟩
    · exact .inl ho
    · exact .inr ⟨a, ha, rest, hd, ho⟩
  · exact ⟨.inl rfl, .inr rfl⟩
  · exact ⟨.inl rfl, .inl rfl⟩

/-! SP as a number (R27, R28): its unit steps do not wrap inside `0..SP_INIT`. -/

theorem sp_sub_one {s : State} (h : s.sp ≠ 0#8) : (s.sp - 1#8).toNat + 1 = s.sp.toNat :=
  pushAddr_eq h

/-- R5, U9: SP_INIT is inside the address space, which ends at 128 at most. -/
theorem State.Inv.spInit_le_memLen {s : State} (hs : s.Inv) : s.cfg.spInit ≤ s.cfg.memLen :=
  let ⟨_, hinit, _⟩ := hs.cfg
  hinit

theorem State.Inv.memLen_le {s : State} (hs : s.Inv) : s.cfg.memLen ≤ 128 := by
  obtain ⟨hlen, -⟩ := hs.cfg
  omega

theorem sp_add_one {s : State} (hs : s.Inv) (h : s.sp.toNat ≠ s.cfg.spInit) :
    (s.sp + 1#8).toNat = s.sp.toNat + 1 := by
  have hlen := hs.memLen_le
  have hinit := hs.spInit_le_memLen
  have hsp : s.sp.toNat < s.cfg.spInit := lt_of_le_of_ne hs.sp h
  rw [BitVec.toNat_add, BitVec.toNat_ofNat]
  omega

/-- Settles O47: only a commit moves SP, by one in its direction. -/
theorem stackPointerMovesByOne : Obligations.StackPointerMovesByOne := by
  intro s t hs h
  rcases step_cases h with ⟨i, rest, hd, hc⟩ | ⟨op, -, rfl⟩ | ⟨c, -, rfl⟩
  · rcases hc.sp_cases with hsp | ⟨hi, h0, hsp⟩ | ⟨hi, h0, hsp⟩
    · exact .inl hsp
    · exact .inr (.inl ⟨by rw [hsp, sp_sub_one h0], i, rest, hd, hi⟩)
    · exact .inr (.inr ⟨by rw [hsp, sp_add_one hs h0], i, rest, hd, hi⟩)
  · exact .inl rfl
  · exact .inl rfl

/-- R26: inside memory, `pc` plus an instruction's length is its 8-bit sum. -/
theorem pc_add_length_toNat {s : State} {i : Instr} {rest : List Byte} (hs : s.Inv)
    (hd : fetchDecode s = .instr i rest) :
    (s.pc + BitVec.ofNat 8 i.length).toNat = s.pc.toNat + i.length := by
  have hlen := hs.memLen_le
  have hle := pc_add_length_le hd
  rw [BitVec.toNat_add, BitVec.toNat_ofNat]
  omega

/-- R143, R60: after a CALL the cell at SP holds the return address. -/
theorem Commits.call_byte_sp {s t : State} {a : Byte} (h : Commits s (.call a) t) (hm : s.mem.wf = true) :
    t.byte t.sp.toNat = returnAddr s := by
  cases h with
  | call _ _ _ => exact (Memory.read_write hm _ _ _).trans (if_pos rfl)

/-- Settles O48: the instruction was fetched, so its bytes end inside memory and no sum passes 255. -/
theorem sequentialAdvanceDoesNotWrap : Obligations.SequentialAdvanceDoesNotWrap := by
  intro s t i rest hs h hrun hd
  have hc : Commits s i t := by
    rw [step_of_instr (running_of_step h) hd] at h
    rcases exec_cases h with ⟨c, -, rfl⟩ | ⟨-, hc⟩
    · cases hrun
    · exact hc
  refine ⟨fun hi => ?_, fun a ha => ?_⟩
  · rw [hc.pc_of_isSequential hi, pc_add_length_toNat hs hd]
    exact ⟨rfl, pc_add_length_le hd⟩
  · subst ha
    rw [hc.call_byte_sp hs.memWf]
    exact pc_add_length_toNat hs hd

end Sys2Proof.Machine

/-! ### The invariant under a step and along a run -/

namespace Sys2Proof.Machine

section
variable {s t : State}

/-! `RunFits` in each run state. -/

theorem runFits_load (h : s.run = .load) : s.RunFits ↔ s = { State.resetWith s.cfg with mem := s.mem } := by
  unfold State.RunFits; rw [h]

theorem runFits_running (h : s.run = .running) : s.RunFits ↔ s.diag = none := by
  unfold State.RunFits; rw [h]

theorem runFits_haltHlt (h : s.run = .haltHlt) : s.RunFits ↔ s.diag = none ∧ s.pc = 0 := by
  unfold State.RunFits; rw [h]

theorem runFits_fault {c : Cause} (h : s.run = .fault c) : s.RunFits ↔ s.diag = none ∧ c.Fits s := by
  unfold State.RunFits; rw [h]

/-- R34: while the machine runs there is no diagnostic. -/
theorem State.Inv.diag_eq_none (hs : s.Inv) (hr : s.run = .running) : s.diag = none :=
  (runFits_running hr).1 hs.runFits

/-- Taking a fault changes nothing that a fault's record speaks of. -/
theorem Cause.fits_raise (c d : Cause) : c.Fits (s.raise d) ↔ c.Fits s := by
  cases c <;> exact Iff.rfl

/-- R193: taking a fault whose record fits. -/
theorem State.Inv.raise (hs : s.Inv) (hr : s.run = .running) {c : Cause} (hc : c.Fits s) : (s.raise c).Inv where
  cfg := hs.cfg
  sp := hs.sp
  flags := hs.flags
  memWf := hs.memWf
  memBelow := hs.memBelow
  runFits := (runFits_fault rfl).2 ⟨hs.diag_eq_none hr, (Cause.fits_raise c c).2 hc⟩

/-- R95: the halt names a byte with no row. -/
theorem State.Inv.unrecognized (hs : s.Inv) {op : Byte} (hop : lookup s.cfg.opc op = none) :
    (s.unrecognized op).Inv where
  cfg := hs.cfg
  sp := hs.sp
  flags := hs.flags
  memWf := hs.memWf
  memBelow := hs.memBelow
  runFits := ⟨op, rfl, hop⟩

theorem Flags.ExactlyOne.legal {f : Flags} (h : f.ExactlyOne) : f.Legal := .inr h

/-- R28: a commit keeps SP in `0..SP_INIT`. -/
theorem Commits.sp_le {i : Instr} (h : Commits s i t) (hs : s.Inv) : t.sp.toNat ≤ s.cfg.spInit := by
  have hsp := hs.sp
  rcases h.sp_cases with he | ⟨-, h0, he⟩ | ⟨-, h0, he⟩
  · rwa [he]
  · have := sp_sub_one h0
    rw [he]; omega
  · rw [he, sp_add_one hs h0]; omega

/-- A commit keeps the invariant: each field by the frame of its element. -/
theorem Commits.inv {i : Instr} (h : Commits s i t) (hs : s.Inv) (hr : s.run = .running) : t.Inv where
  cfg := h.cfg_eq ▸ hs.cfg
  sp := h.cfg_eq ▸ h.sp_le hs
  flags := by
    rcases h.fl_cases with hfl | ⟨-, hone⟩
    · exact hfl ▸ hs.flags
    · exact hone.legal
  memWf := by
    rcases h.mem_cases with hm | ⟨-, v, hm⟩
    · exact hm ▸ hs.memWf
    · exact hm ▸ Memory.wf_write hs.memWf _ v
  memBelow := by
    rw [h.cfg_eq]
    rcases h.mem_cases with hm | ⟨ha, v, hm⟩
    · exact hm ▸ hs.memBelow
    · exact hm ▸ Memory.below_write v ha hs.memBelow
  runFits := by
    have hdiag : t.diag = none := h.diag_eq.trans (hs.diag_eq_none hr)
    rcases h.run_cases with hrun | ⟨-, hrun, hpc⟩
    · exact (runFits_running (hrun.trans hr)).2 hdiag
    · exact (runFits_haltHlt hrun).2 ⟨hdiag, hpc⟩

/-- R140, R180: from the invariant a stack access stops only at its bound, as its record says. -/
theorem fits_of_stackStop? {i : Instr} {c : Cause} (hs : s.Inv) (h : stackStop? s i = some c) : c.Fits s := by
  have hsp := hs.sp
  have hinit := hs.spInit_le_memLen
  rcases stackStop?_cases h with ⟨-, h0, rfl⟩ | ⟨-, h0, hm, rfl⟩ | ⟨-, h0, rfl⟩ | ⟨-, h0, hm, rfl⟩
  · exact ⟨rfl, h0⟩
  · have := pushAddr_eq h0
    omega
  · exact ⟨rfl, h0⟩
  · omega

/-- R180: the record of every cause a step stops with fits the state it leaves. -/
theorem StepStops.fits {c : Cause} (h : StepStops s c) (hs : s.Inv) : c.Fits s := by
  rcases h with ⟨k, hd, rfl⟩ | ⟨b, hd, rfl⟩ | ⟨i, rest, -, hc⟩
  · obtain ⟨hout, hk⟩ := missing_bounds hd
    exact ⟨hout, by omega, by omega⟩
  · exact says_of_fetchDecode hd
  · rcases stopCause?_cases hc with ⟨b, hb, rfl⟩ | hstack
    · exact (invalidReg?_spec hb).1
    · exact fits_of_stackStop? hs hstack

end

/-- Settles O11: by what a step can do, each with its own preservation lemma. -/
theorem stepKeepsInvariant : Obligations.StepKeepsInvariant := by
  intro s t hs h
  have hr := running_of_step h
  rcases step_cases h with ⟨i, rest, -, hc⟩ | ⟨op, hd, rfl⟩ | ⟨c, hc, rfl⟩
  · exact hc.inv hs hr
  · exact hs.unrecognized (says_of_fetchDecode hd)
  · exact hs.raise hr (hc.fits hs)

/-! The launch (R213): reset, loads in LOAD, start. -/

section
variable {s t : State}

/-- R65: a load happens in LOAD alone, inside memory, and stores one byte. -/
theorem hostLoad_cases {a : Nat} {b : Byte} (h : hostLoad a b s = .next t) :
    s.run = .load ∧ a < s.cfg.memLen ∧ t = s.setMem (s.mem.write a b) := by
  unfold hostLoad at h
  split at h
  · next hr =>
    rcases Nat.lt_or_ge a s.cfg.memLen with ha | ha
    · rw [memWrite_ok ha] at h; cases h; exact ⟨hr, ha, rfl⟩
    · rw [memWrite_error ha] at h; cases h
  · cases h

/-- R217: start happens in LOAD alone and changes `run`. -/
theorem hostStart_cases (h : hostStart s = .next t) : s.run = .load ∧ t = s.setRun .running := by
  unfold hostStart at h
  split at h
  · next hr => cases h; exact ⟨hr, rfl⟩
  · cases h

theorem inv_hostLoad {a : Nat} {b : Byte} (hs : s.Inv) (h : hostLoad a b s = .next t) : t.Inv := by
  obtain ⟨hr, ha, rfl⟩ := hostLoad_cases h
  have hmem : s.setMem (s.mem.write a b) = (State.resetWith s.cfg).setMem (s.mem.write a b) :=
    (congrArg (State.setMem · (s.mem.write a b)) ((runFits_load hr).1 hs.runFits)).trans rfl
  exact {
    cfg := hs.cfg
    sp := hs.sp
    flags := hs.flags
    memWf := Memory.wf_write hs.memWf a b
    memBelow := Memory.below_write b ha hs.memBelow
    runFits := (runFits_load (s := s.setMem (s.mem.write a b)) hr).2 hmem }

theorem inv_hostStart (hs : s.Inv) (h : hostStart s = .next t) : t.Inv := by
  obtain ⟨hr, rfl⟩ := hostStart_cases h
  have hdiag : s.diag = none := congrArg State.diag ((runFits_load hr).1 hs.runFits)
  exact {
    cfg := hs.cfg
    sp := hs.sp
    flags := hs.flags
    memWf := hs.memWf
    memBelow := hs.memBelow
    runFits := (runFits_running rfl).2 hdiag }

theorem inv_hostLoadFrom {a : Nat} {image : List Byte} (hs : s.Inv) (h : hostLoadFrom a image s = .next t) :
    t.Inv := by
  induction image generalizing a s with
  | nil => cases h; exact hs
  | cons b rest ih =>
    unfold hostLoadFrom at h
    cases hl : hostLoad a b s with
    | next u => rw [hl] at h; exact ih (inv_hostLoad hs hl) h
    | fault r => rw [hl] at h; cases h
    | refused r => rw [hl] at h; cases h

/-- R213: the launch of any image on an admissible machine. -/
theorem inv_launch {image : List Byte} (hs : s.cfg.Admissible) (h : launch image s = .next t) : t.Inv := by
  unfold launch at h
  cases hl : hostLoadFrom 0 image (hostReset s) with
  | next u => rw [hl] at h; exact inv_hostStart (inv_hostLoadFrom (inv_resetWith hs) hl) h
  | fault r => rw [hl] at h; cases h
  | refused r => rw [hl] at h; cases h

end

/-- What holds of a state and is kept by every step holds after any number of steps. -/
theorem core_run_induction {P : State → Prop} (hstep : ∀ s t, P s → step s = .next t → P t) (n : Nat) {s : State}
    {u : core.State} (hs : P s) (h : core.run n s = .next u) : P u := by
  induction n generalizing s with
  | zero => cases h; exact hs
  | succ n ih =>
    simp only [Host.Core.run] at h
    cases hst : core.step s with
    | next t => rw [hst] at h; exact ih (hstep s t hs hst) h
    | fault r => rw [hst] at h; cases h
    | refused r => rw [hst] at h; cases h

/-- R187: no state of the invariant has ended in UnsupportedOperation. -/
theorem State.Inv.not_unsupported {s : State} (hs : s.Inv) : s.run ≠ .fault .unsupportedOperation :=
  fun h => ((runFits_fault h).1 hs.runFits).2

/-- Settles O13: the invariant at launch, kept along the run. -/
theorem everyRunFromLaunchKeepsInvariant : Obligations.EveryRunFromLaunchKeepsInvariant := by
  intro image s t u n hs hl hrun
  have hu : State.Inv u := core_run_induction stepKeepsInvariant n (inv_launch hs hl) hrun
  exact ⟨hu, hu.not_unsupported⟩

/-- Settles O6: field by field; every clause is about the reset state of the machine's own parameters. -/
theorem resetValues : Obligations.ResetValues := by
  refine ⟨fun s => ⟨fun r => ?_, rfl, rfl, rfl, fun _ => rfl, rfl, rfl, rfl, rfl⟩, fun s hs => ?_, rfl, rfl⟩
  · simp [hostReset, State.reg, State.resetWith]
  · rw [hostReset, hs, State.reset]

end Sys2Proof.Machine

/-! ### Canonical memories are determined by what they read as (log entry 17) -/

namespace Sys2Proof.Machine

theorem Memory.wfFrom_cons {lo a : Nat} {v : Byte} {m : Memory} :
    Memory.wfFrom lo ((a, v) :: m) = true ↔ lo ≤ a ∧ v ≠ 0 ∧ m.wfFrom (a + 1) = true := by
  simp only [Memory.wfFrom, Bool.and_eq_true, decide_eq_true_eq, and_assoc]
  rfl

@[simp] theorem Memory.read_cons_self (a : Nat) (v : Byte) (m : Memory) : Memory.read ((a, v) :: m) a = v :=
  if_pos rfl

theorem Memory.read_cons_ne {a q : Nat} (v : Byte) (m : Memory) (h : q ≠ a) :
    Memory.read ((a, v) :: m) q = Memory.read m q :=
  if_neg h

/-- The first cell listed is not before the first cell of a canonical memory that reads the same. -/
theorem Memory.le_first_of_read_eq {a b : Nat} {v w : Byte} {m n : Memory} (hv : v ≠ 0)
    (hn : Memory.wfFrom b ((b, w) :: n) = true)
    (h : Memory.read ((a, v) :: m) a = Memory.read ((b, w) :: n) a) : b ≤ a := by
  by_contra hlt
  rw [Memory.read_below_wfFrom hn (by omega), Memory.read_cons_self] at h
  exact hv h

/-- Canonical memories with equal reads list the same cells. -/
theorem Memory.eq_of_read_eq {m n : Memory} {lo : Nat} (hm : m.wfFrom lo = true) (hn : n.wfFrom lo = true)
    (h : ∀ a, m.read a = n.read a) : m = n := by
  induction m generalizing n lo with
  | nil =>
    cases n with
    | nil => rfl
    | cons d n =>
      obtain ⟨-, hw, -⟩ := Memory.wfFrom_cons.1 hn
      exact absurd ((Memory.read_cons_self ..).symm.trans (h d.1).symm) hw
  | cons c m ih =>
    obtain ⟨a, v⟩ := c
    obtain ⟨hlo, hv, hm'⟩ := Memory.wfFrom_cons.1 hm
    cases n with
    | nil => exact absurd ((Memory.read_cons_self ..).symm.trans (h a)) hv
    | cons d n =>
      obtain ⟨b, w⟩ := d
      obtain ⟨hlo', hw, hn'⟩ := Memory.wfFrom_cons.1 hn
      have hba : b ≤ a := Memory.le_first_of_read_eq hv (Memory.wfFrom_cons.2 ⟨le_rfl, hw, hn'⟩) (h a)
      have hab : a ≤ b := Memory.le_first_of_read_eq hw (Memory.wfFrom_cons.2 ⟨le_rfl, hv, hm'⟩) (h b).symm
      obtain rfl : a = b := le_antisymm hab hba
      have hvw : v = w := by simpa using h a
      have hrest : ∀ q, Memory.read m q = Memory.read n q := fun q => by
        rcases Nat.lt_or_ge q (a + 1) with hq | hq
        · rw [Memory.read_below_wfFrom hm' hq, Memory.read_below_wfFrom hn' hq]
        · have hne : q ≠ a := by omega
          rw [← Memory.read_cons_ne v m hne, ← Memory.read_cons_ne w n hne, h q]
      rw [hvw, ih hm' hn' hrest]

/-- Settles O27: the induction, from address 0. -/
theorem canonicalMemoriesWithEqualBytesAreEqual : Obligations.CanonicalMemoriesWithEqualBytesAreEqual :=
  fun _ _ hm hn => Memory.eq_of_read_eq hm hn

end Sys2Proof.Machine

/-! ### The host's actions: when each acts, and that the invariant is kept -/

namespace Sys2Proof.Machine

section
variable {s : State} {a : Nat}

/-- Memory after one store (R53): the cell stored to, and every other cell. -/
theorem byte_setMem_write (hm : s.mem.wf = true) (a : Nat) (v : Byte) (q : Nat) :
    (s.setMem (s.mem.write a v)).byte q = if q = a then v else s.byte q :=
  Memory.read_write hm a v q

/-! Loading and starting, in LOAD and outside it (R65, R217, R101). -/

theorem hostLoad_refused_of_not_load (hr : s.run ≠ .load) (a : Nat) (b : Byte) :
    hostLoad a b s = .refused .hostActionOutsideLoad :=
  if_neg hr

theorem hostLoad_refused_of_le (hr : s.run = .load) (ha : s.cfg.memLen ≤ a) (b : Byte) :
    hostLoad a b s = .refused (.loadOutOfRange a) := by
  rw [hostLoad, if_pos hr, memWrite_error ha]

theorem hostLoad_next (hr : s.run = .load) (ha : a < s.cfg.memLen) (b : Byte) :
    hostLoad a b s = .next (s.setMem (s.mem.write a b)) := by
  rw [hostLoad, if_pos hr, memWrite_ok ha]

theorem hostStart_refused_of_not_load (hr : s.run ≠ .load) : hostStart s = .refused .hostActionOutsideLoad :=
  if_neg hr

theorem hostStart_next (hr : s.run = .load) : hostStart s = .next (s.setRun .running) :=
  if_pos hr

end

/-- Settles O12: one preservation lemma for each action. -/
theorem hostActionsKeepInvariant : Obligations.HostActionsKeepInvariant :=
  fun _ _ _ _ _ hs => ⟨inv_resetWith hs.cfg, inv_hostLoad hs, inv_hostStart hs, inv_launch hs.cfg⟩

/-- Settles O9: the two actions in LOAD and outside it, and what a read gives after one store. -/
theorem hostActionsOnlyInLoad : Obligations.HostActionsOnlyInLoad :=
  fun _ a b =>
    ⟨fun hr => ⟨hostLoad_refused_of_not_load hr a b, hostStart_refused_of_not_load hr⟩,
     hostStart_next,
     fun hr ha => hostLoad_refused_of_le hr ha b,
     fun hr hm ha => ⟨_, hostLoad_next hr ha b, rfl, byte_setMem_write hm a b⟩⟩

end Sys2Proof.Machine

/-! ### Memory accesses, and which cell an instruction or a step may change -/

namespace Sys2Proof.Machine

/-- Settles O25: by the two answers of a read. -/
theorem memReadContract : Obligations.MemReadContract :=
  fun _ _ => ⟨memRead_ok, memRead_error⟩

/-- Settles O26: by the two answers of a write and what a read gives after it. -/
theorem memWriteContract : Obligations.MemWriteContract := by
  intro a v s hm
  refine ⟨fun ha => ⟨_, memWrite_ok ha, ?_, fun q hq => ?_, rfl⟩, memWrite_error⟩
  · rw [byte_setMem_write hm, if_pos rfl]
  · rw [byte_setMem_write hm, if_neg hq]

section
variable {s t : State} {i : Instr} {a : Nat}

/-- R54: a commit changes at most the cell a push or call stores to. -/
theorem Commits.byte_eq (h : Commits s i t) (hm : s.mem.wf = true)
    (ha : storesToStack i = true → a ≠ pushAddr s) : t.byte a = s.byte a := by
  have hstore (v : Byte) (hi : storesToStack i = true) : (s.mem.write (pushAddr s) v).read a = s.byte a :=
    (Memory.read_write hm _ v a).trans (if_neg (ha hi))
  cases h with
  | push _ _ _ => exact hstore _ rfl
  | call _ _ _ => exact hstore _ rfl
  | _ => rfl

/-- R54, R193: so does every meaning, since a stop changes no cell. -/
theorem exec_byte_eq (h : exec i s = .next t) (hm : s.mem.wf = true)
    (ha : storesToStack i = true → a ≠ pushAddr s) : t.byte a = s.byte a := by
  rcases exec_cases h with ⟨c, -, rfl⟩ | ⟨-, hc⟩
  · rfl
  · exact hc.byte_eq hm ha

/-- R140: a push or call that commits had room. -/
theorem Commits.sp_ne_zero (h : Commits s i t) (hi : storesToStack i = true) : s.sp ≠ 0#8 := by
  intro h0
  have hover : stackStop? s i = some (.stackOverflow s.pc) := stackStop?_overflow hi h0
  rw [h.stackStop?_eq_none] at hover
  cases hover

/-- R59: the cell a push stores to is in the stack region. -/
theorem pushAddr_lt_spInit (hs : s.Inv) (h0 : s.sp ≠ 0#8) : pushAddr s < s.cfg.spInit := by
  have haddr := pushAddr_eq h0
  have hsp := hs.sp
  omega

end

/-- Settles O28: both clauses are the one frame of a meaning. -/
theorem memoryFrame : Obligations.MemoryFrame := by
  intro i s t hm h
  refine ⟨fun hi a => exec_byte_eq h hm fun hstore => ?_, fun _ a ha => exec_byte_eq h hm fun _ => ha⟩
  cases hi.symm.trans hstore

/-- Settles O29: only a commit stores, and its cell is below SP_INIT. -/
theorem cellsAboveTheStackRegionNeverChange : Obligations.CellsAboveTheStackRegionNeverChange := by
  intro s t a hs h ha
  rcases step_cases h with ⟨i, rest, -, hc⟩ | ⟨op, -, rfl⟩ | ⟨c, -, rfl⟩
  · refine hc.byte_eq hs.memWf fun hi => ?_
    have haddr : pushAddr s < s.cfg.spInit := pushAddr_lt_spInit hs (hc.sp_ne_zero hi)
    omega
  · rfl
  · rfl

end Sys2Proof.Machine

/-! ### A pushed byte as the next opcode -/

namespace Sys2Proof

/-- R78: an opcode byte with no row is reported, whatever follows. -/
theorem decode_cons_of_lookup_none {o : Opc} {b : Byte} (h : lookup o b = none) (rest : List Byte) :
    decode o (b :: rest) = .unrecognized b := by
  simp only [decode, h]

end Sys2Proof

namespace Sys2Proof.Machine

section
variable {s : State}

/-- R91: the first byte fetched is the one at `pc`. -/
theorem fetchBytes_eq_cons (h : s.pc.toNat < s.cfg.memLen) :
    fetchBytes s = s.byte s.pc.toNat :: bytesFrom s.cfg.memLen s.mem (s.pc.toNat + 1) 2 :=
  if_pos h

theorem head?_fetchBytes (h : s.pc.toNat < s.cfg.memLen) : (fetchBytes s).head? = some (s.byte s.pc.toNat) := by
  rw [fetchBytes_eq_cons h, List.head?_cons]

/-- R95, R78: a running machine at a byte that is no opcode takes the unrecognized-opcode halt. -/
theorem step_of_not_opcode (hr : s.run = .running) (h : s.pc.toNat < s.cfg.memLen)
    (hop : s.byte s.pc.toNat ∉ s.cfg.opc.bytes) : step s = .next (s.unrecognized (s.byte s.pc.toNat)) := by
  refine step_of_unrecognized hr ?_
  rw [fetchDecode, fetchBytes_eq_cons h]
  exact decode_cons_of_lookup_none (lookup_eq_none.2 hop) _

theorem push_ok (v : Byte) (h0 : s.sp ≠ 0#8) (hm : pushAddr s < s.cfg.memLen) : push v s = .ok (pushed v s) :=
  (if_neg h0).trans (memWrite_ok hm)

theorem pushAddr_lt_memLen (hs : s.Inv) (h0 : s.sp ≠ 0#8) : pushAddr s < s.cfg.memLen :=
  (pushAddr_lt_spInit hs h0).trans_le hs.spInit_le_memLen

/-- R141: from the invariant a PUSH with room commits. -/
theorem exec_push_eq {opa : Byte} (h : opa.toNat < 8) (hs : s.Inv) (h0 : s.sp ≠ 0#8) :
    exec (.push opa) s = .next ((pushed (s.reg ⟨opa.toNat, h⟩) s).advance 2) := by
  rw [exec, execPush, readReg_ok h, ok_bind, push_ok _ h0 (pushAddr_lt_memLen hs h0)]
  rfl

end

/-- Settles O30: after the PUSH the new SP is `pc`, and the cell there holds the register's value. -/
theorem pushedByteIsDecodedNext : Obligations.PushedByteIsDecodedNext := by
  intro s t opa h hs hr h0 he hpcsp
  have ht : (pushed (s.reg ⟨opa.toNat, h⟩) s).advance 2 = t :=
    Host.Outcome.next.inj ((exec_push_eq h hs h0).symm.trans he)
  have hcfg : t.cfg = s.cfg := ht ▸ rfl
  have hrun : t.run = .running := ht ▸ hr
  have hpc : t.pc.toNat = pushAddr s := (congrArg BitVec.toNat hpcsp).trans (ht ▸ rfl)
  have hin : t.pc.toNat < t.cfg.memLen := hpc ▸ hcfg ▸ pushAddr_lt_memLen hs h0
  have hbyte : t.byte t.pc.toNat = s.reg ⟨opa.toNat, h⟩ := by
    rw [hpc, ← ht]
    exact (Memory.read_write hs.memWf _ _ _).trans (if_pos rfl)
  rw [← hbyte, ← hcfg]
  exact ⟨head?_fetchBytes hin, step_of_not_opcode hrun hin⟩

end Sys2Proof.Machine

/-! ### The decoder and the encoder agree; the bytes that are no opcode -/

namespace Sys2Proof

/-- R76, R94: what `decode` answers once an instruction and its operand bytes are complete: the instruction, or its first
invalid register byte. -/
def Decoded.ofComplete (i : Instr) (rest : List Byte) : Decoded :=
  i.invalidReg?.elim (.instr i rest) .invalidRegister

theorem Decoded.ofComplete_of_invalidReg {i : Instr} {b : Byte} (h : i.invalidReg? = some b) (rest : List Byte) :
    ofComplete i rest = .invalidRegister b := by
  rw [ofComplete, h, Option.elim_some]

theorem Decoded.ofComplete_of_wellFormed {i : Instr} (h : WellFormed i) (rest : List Byte) :
    ofComplete i rest = .instr i rest := by
  rw [ofComplete, invalidReg?_eq_none.2 h, Option.elim_none]

/-- The only instruction a complete decode gives is the one it is complete with, and that one is well-formed. -/
theorem Decoded.ofComplete_eq_instr {i j : Instr} {rest tail : List Byte} (h : ofComplete i rest = .instr j tail) :
    WellFormed i ∧ i = j ∧ rest = tail := by
  cases hr : i.invalidReg? with
  | some b =>
    rw [ofComplete_of_invalidReg hr] at h
    cases h
  | none =>
    have hw := invalidReg?_eq_none.1 hr
    rw [ofComplete_of_wellFormed hw] at h
    exact ⟨hw, Decoded.instr.inj h⟩

/-- R72, R92, R93: with the operand bytes of its row there, an opcode byte decodes to that row's instruction. -/
theorem decode_of_complete {o : Opc} {b : Byte} {row : Row} {rest : List Byte} (h : lookup o b = some row)
    (hlen : row.kinds.length ≤ rest.length) :
    decode o (b :: rest) =
      .ofComplete (assemble row.op (rest.getD 0 0) (rest.getD 1 0)) (rest.drop row.kinds.length) := by
  simp only [decode, h, if_neg hlen.not_gt, Decoded.ofComplete]
  cases (assemble row.op (rest.getD 0 0) (rest.getD 1 0)).invalidReg? <;> rfl

/-- Bytes after the operands of an instruction do not change what is assembled from them. -/
theorem assemble_operands_append (i : Instr) (rest : List Byte) :
    assemble i.op ((i.operands ++ rest).getD 0 0) ((i.operands ++ rest).getD 1 0) = i := by
  cases i <;> rfl

/-- R70..R74: an encoding decodes as its instruction, well-formed or not, with the bytes after it. -/
theorem decode_encode_append {o : Opc} (ho : o.Injective) (i : Instr) (rest : List Byte) :
    decode o (encode o i ++ rest) = .ofComplete i rest := by
  have hlen : (rowOf o i.op).kinds.length ≤ (i.operands ++ rest).length := by
    rw [← operands_length, List.length_append]; exact Nat.le_add_right ..
  calc decode o (encode o i ++ rest)
      = .ofComplete (assemble i.op ((i.operands ++ rest).getD 0 0) ((i.operands ++ rest).getD 1 0))
          ((i.operands ++ rest).drop (rowOf o i.op).kinds.length) := decode_of_complete (lookup_opcodeOf ho i.op) hlen
    _ = .ofComplete i rest := by rw [assemble_operands_append, ← operands_length, List.drop_left]

/-- Settles O1: an encoding is complete, and a well-formed instruction passes validation. -/
theorem decodeOfEncode : Obligations.DecodeOfEncode := fun _ i rest ho hw =>
  (decode_encode_append ho i rest).trans (Decoded.ofComplete_of_wellFormed hw rest)

/-- The operands of an assembled instruction are the first of the two bytes given, as many as its row has (R71). -/
theorem operands_assemble (o : Opc) (p : Op) (a b : Byte) :
    (assemble p a b).operands = [a, b].take (rowOf o p).kinds.length := by
  cases p <;> rfl

theorem take_pair_getD {bs : List Byte} {n : Nat} (h2 : n ≤ 2) (hn : n ≤ bs.length) :
    [bs.getD 0 0, bs.getD 1 0].take n = bs.take n := by
  match bs, n with
  | _, 0 => rfl
  | _ :: _, 1 => rfl
  | _ :: _ :: _, 2 => rfl

/-- R71, R72: an opcode byte with its operand bytes is the encoding of the row's instruction, the rest of the bytes after it. -/
theorem cons_eq_encode_append {o : Opc} {b : Byte} {row : Row} {rest : List Byte} (h : lookup o b = some row)
    (hlen : row.kinds.length ≤ rest.length) :
    b :: rest = encode o (assemble row.op (rest.getD 0 0) (rest.getD 1 0)) ++ rest.drop row.kinds.length := by
  obtain ⟨hrow, hop⟩ := lookup_cases h
  have h2 : row.kinds.length ≤ 2 := hrow ▸ rowOf_kinds_length o row.op
  rw [encode, op_assemble, hop, operands_assemble o, ← hrow, take_pair_getD h2 hlen, List.cons_append,
    List.take_append_drop]

/-- Settles O2: only a complete decode gives an instruction, and its bytes are that instruction's encoding. -/
theorem decodedBytesAreTheEncoding : Obligations.DecodedBytesAreTheEncoding := by
  intro o bytes rest i h
  cases bytes with
  | nil => cases h
  | cons b tail =>
    rcases decode_cases o b tail with ⟨-, hd⟩ | ⟨row, hrow, ⟨-, hd⟩ | ⟨hlen, -⟩⟩
    · cases hd.symm.trans h
    · cases hd.symm.trans h
    · obtain ⟨hw, rfl, rfl⟩ := Decoded.ofComplete_eq_instr ((decode_of_complete hrow hlen).symm.trans h)
      exact ⟨hw, cons_eq_encode_append hrow hlen⟩

/-- R94: what validation reports is the first register operand above 7: the ones before it are valid. -/
theorem valid_before_invalidReg {i : Instr} {b : Byte} (h : i.invalidReg? = some b) :
    ∃ before after, i.regOperands = before ++ b :: after ∧ ∀ r ∈ before, r.toNat ≤ 7 := by
  obtain ⟨-, before, after, heq, hvalid⟩ := List.find?_eq_some_iff_append.1 h
  refine ⟨before, after, heq, fun r hr => Nat.le_of_lt_succ ((isRegByte_iff r).1 ?_)⟩
  simpa using hvalid r hr

/-- Settles O3: an encoding is complete, and validation reports the first register operand above 7. -/
theorem decodeReportsFirstInvalidRegister : Obligations.DecodeReportsFirstInvalidRegister := fun _ i rest _ ho h =>
  ⟨(decode_encode_append ho i rest).trans (Decoded.ofComplete_of_invalidReg h rest), (invalidReg?_spec h).1,
    valid_before_invalidReg h⟩

/-- R78: a byte is reported as unrecognized, whatever follows, exactly when it is none of the 13 opcodes. -/
theorem decode_eq_unrecognized {o : Opc} {b : Byte} {rest : List Byte} :
    decode o (b :: rest) = .unrecognized b ↔ b ∉ o.bytes := by
  rw [← lookup_eq_none]
  constructor
  · intro h
    have hsays : (Decoded.unrecognized b).Says o (b :: rest) := h ▸ decode_says o (b :: rest)
    exact hsays
  · intro h
    exact decode_cons_of_lookup_none h rest

theorem isSome_lookup {o : Opc} {b : Byte} : (lookup o b).isSome = true ↔ b ∈ o.bytes := by
  rw [Option.isSome_iff_ne_none, ne_eq, lookup_eq_none, not_not]

/-- R73: the numbers below 256 that are opcodes are the 13 opcode bytes of the table, read as numbers. -/
theorem opcodes_perm_bytes {o : Opc} (ho : o.Injective) :
    ((List.range 256).filter fun n => (lookup o (BitVec.ofNat 8 n)).isSome).Perm (o.bytes.map BitVec.toNat) := by
  have hnodup : (o.bytes.map BitVec.toNat).Nodup := ho.map fun _ _ => BitVec.eq_of_toNat_eq
  refine (List.perm_ext_iff_of_nodup (List.nodup_range.filter _) hnodup).2 fun n => ?_
  rw [List.mem_filter, List.mem_range, isSome_lookup, List.mem_map]
  constructor
  · rintro ⟨hn, hm⟩
    exact ⟨_, hm, (BitVec.toNat_ofNat ..).trans (Nat.mod_eq_of_lt hn)⟩
  · rintro ⟨b, hb, rfl⟩
    exact ⟨b.isLt, by rwa [BitVec.ofNat_toNat, BitVec.setWidth_eq]⟩

/-- R78: 256 byte values, less the 13 opcodes. -/
theorem length_unrecognized {o : Opc} (ho : o.Injective) :
    ((List.range 256).filter fun n => (lookup o (BitVec.ofNat 8 n)).isNone).length = 243 := by
  have h13 := (opcodes_perm_bytes ho).length_eq
  have hsum := List.length_eq_length_filter_add (l := List.range 256) fun n => (lookup o (BitVec.ofNat 8 n)).isSome
  simp only [Option.not_isSome, List.length_range] at hsum
  rw [List.length_map, show o.bytes.length = 13 from rfl] at h13
  omega

/-- Settles O4: the lookup's rule for the byte, the count by complement of the 13 opcodes, and the default table has no row for
0x00. -/
theorem unrecognizedOpcodesAre243 : Obligations.UnrecognizedOpcodesAre243 :=
  ⟨fun _ _ _ => decode_eq_unrecognized, fun _ => length_unrecognized, lookup_eq_none.2 (by decide)⟩

/-- R73 for the default opcode values (log entry 2). -/
theorem default_injective : Opc.default.Injective := by decide

/-- Settles O5: each word is the encoding of its instruction with the default opcode values. -/
theorem tableWordsDecode : Obligations.TableWordsDecode :=
  ⟨decodeOfEncode Opc.default (.ldi 3 42) [] default_injective rfl,
    decodeOfEncode Opc.default (.add 0 1) [] default_injective rfl,
    decodeOfEncode Opc.default (.call 1) [] default_injective rfl,
    decodeOfEncode Opc.default (.jeq 4) [] default_injective rfl,
    decodeOfEncode Opc.default .ret [] default_injective rfl⟩

end Sys2Proof

/-! ### The bytes at `pc`, and what is fetched from them -/

namespace Sys2Proof

/-- R71, R72: what a looked-up row makes of two bytes depends only on as many of them as the row has operands. -/
theorem assemble_congr {o : Opc} {op : Byte} {row : Row} (hrow : lookup o op = some row) {a b x y : Byte}
    (h : [a, b].take row.kinds.length = [x, y].take row.kinds.length) :
    assemble row.op a b = assemble row.op x y := by
  have hops : (assemble row.op a b).operands = (assemble row.op x y).operands := by
    rw [operands_assemble o, operands_assemble o, ← (lookup_cases hrow).1, h]
  rw [← assemble_op (assemble row.op a b), ← assemble_op (assemble row.op x y), op_assemble, op_assemble, hops]

/-- R70, R74: a row that was looked up has at most two operands. -/
theorem kinds_length_le {o : Opc} {b : Byte} {row : Row} (h : lookup o b = some row) : row.kinds.length ≤ 2 := by
  rw [(lookup_cases h).1]; exact rowOf_kinds_length o row.op

/-- R93, R191: an opcode byte without all the operand bytes of its row lacks the first byte after those there are. -/
theorem decode_of_incomplete {o : Opc} {b : Byte} {row : Row} {rest : List Byte} (h : lookup o b = some row)
    (hlen : rest.length < row.kinds.length) : decode o (b :: rest) = .missing (1 + rest.length) := by
  simp only [decode, h, if_pos hlen]

end Sys2Proof

namespace Sys2Proof.Machine

/-- R93: what is looked at, position by position: each byte that memory has. -/
theorem getElem?_bytesFrom {len : Nat} {m : Memory} {a n k : Nat} (hk : k < n) (h : a + k < len) :
    (bytesFrom len m a n)[k]? = some (m.read (a + k)) := by
  induction n generalizing a k with
  | zero => omega
  | succ n ih =>
    rw [bytesFrom, if_pos (by omega)]
    cases k with
    | zero => rfl
    | succ k => rw [List.getElem?_cons_succ, ih (by omega) (by omega), Nat.add_right_comm, Nat.add_assoc]

section
variable {s : State}

/-- R91: `pc` outside memory, so no opcode byte. -/
theorem fetchDecode_of_pc_outside (h : s.cfg.memLen ≤ s.pc.toNat) : fetchDecode s = .missing 0 := by
  have hnil : fetchBytes s = [] := if_neg h.not_gt
  rw [fetchDecode, hnil]
  rfl

/-- R93: the operand bytes looked at, as many as are inside memory, are the two cells after `pc`. -/
theorem take_bytesFrom_pc {n : Nat} (h2 : n ≤ 2) (h : s.pc.toNat + n < s.cfg.memLen) :
    (bytesFrom s.cfg.memLen s.mem (s.pc.toNat + 1) 2).take n =
      [s.byte (s.pc.toNat + 1), s.byte (s.pc.toNat + 2)].take n := by
  match n, h2 with
  | 0, _ => rfl
  | 1, _ => rw [bytesFrom, if_pos h]; rfl
  | 2, _ => rw [bytesFrom, if_pos (by omega), bytesFrom, if_pos h]; rfl

section
variable {row : Row} (hpc : s.pc.toNat < s.cfg.memLen)
  (hrow : lookup s.cfg.opc (s.byte s.pc.toNat) = some row)
include hpc hrow

/-- R93: with its operand bytes in memory, what is fetched is the instruction that the row of the opcode at `pc` makes of the
two cells after it. -/
theorem fetchDecode_of_operands_inside (h : s.pc.toNat + row.kinds.length < s.cfg.memLen) :
    ∃ rest, fetchDecode s =
      .ofComplete (assemble row.op (s.byte (s.pc.toNat + 1)) (s.byte (s.pc.toNat + 2))) rest := by
  have h2 := kinds_length_le hrow
  have hlen : row.kinds.length ≤ (bytesFrom s.cfg.memLen s.mem (s.pc.toNat + 1) 2).length := by
    rw [length_bytesFrom]; omega
  have hasm := assemble_congr hrow ((take_pair_getD h2 hlen).trans (take_bytesFrom_pc h2 h))
  rw [fetchDecode, fetchBytes_eq_cons hpc, decode_of_complete hrow hlen, hasm]
  exact ⟨_, rfl⟩

/-- R93, R191: the first operand byte outside memory is the one at MEM_LEN. -/
theorem fetchDecode_of_operands_outside (h : s.cfg.memLen ≤ s.pc.toNat + row.kinds.length) :
    fetchDecode s = .missing (s.cfg.memLen - s.pc.toNat) := by
  have h2 := kinds_length_le hrow
  have hlen := length_bytesFrom s.cfg.memLen s.mem (s.pc.toNat + 1) 2
  rw [fetchDecode, fetchBytes_eq_cons hpc, decode_of_incomplete hrow (by omega)]
  congr 1
  omega

end

/-- R71: the bytes looked at begin with those of the instruction that stands at `pc`. -/
theorem State.InstrAt.encode_prefix {i : Instr} (h : s.InstrAt i) : encode s.cfg.opc i <+: fetchBytes s := by
  have hlen : (encode s.cfg.opc i).length ≤ maxLength := by
    rw [encode, List.length_cons, operands_length s.cfg.opc i]
    exact Nat.succ_le_succ (rowOf_kinds_length s.cfg.opc i.op)
  refine List.prefix_iff_getElem?.2 fun k hk => ?_
  obtain ⟨hin, hbyte⟩ := h k _ (List.getElem?_eq_getElem hk)
  rw [← hbyte]
  exact getElem?_bytesFrom (hk.trans_le hlen) hin

/-- R90, R94: an instruction that stands at `pc` is what is fetched, unless a register byte of it is refused. -/
theorem State.InstrAt.fetchDecode_eq {i : Instr} (ho : s.cfg.opc.Injective) (h : s.InstrAt i) :
    ∃ rest, fetchDecode s = .ofComplete i rest := by
  obtain ⟨rest, hrest⟩ := h.encode_prefix
  exact ⟨rest, by rw [fetchDecode, ← hrest, decode_encode_append ho]⟩

/-! A running state's step on an instruction all of whose bytes are in memory. -/

section
variable {i : Instr} {rest : List Byte} (hr : s.run = .running) (hd : fetchDecode s = .ofComplete i rest)
include hr hd

theorem step_of_wellFormed (hw : WellFormed i) : step s = exec i s :=
  step_of_instr hr (hd.trans (Decoded.ofComplete_of_wellFormed hw rest))

theorem step_of_invalidReg {b : Byte} (hb : i.invalidReg? = some b) :
    step s = .next (s.raise (.invalidRegister b)) :=
  step_of_invalidRegister hr (hd.trans (Decoded.ofComplete_of_invalidReg hb rest))

end

/-- R91, R183: `pc` outside memory ends the run at that address. -/
theorem step_of_pc_outside (hr : s.run = .running) (h : s.cfg.memLen ≤ s.pc.toNat) :
    step s = .next (s.raise (.addressOutOfRange s.pc.toNat)) :=
  step_of_missing hr (fetchDecode_of_pc_outside h)

/-- R93, R183: an operand byte outside memory ends the run at MEM_LEN. -/
theorem step_of_operands_outside {row : Row} (hr : s.run = .running) (hpc : s.pc.toNat < s.cfg.memLen)
    (hrow : lookup s.cfg.opc (s.byte s.pc.toNat) = some row)
    (h : s.cfg.memLen ≤ s.pc.toNat + row.kinds.length) :
    step s = .next (s.raise (.addressOutOfRange s.cfg.memLen)) := by
  rw [step_of_missing hr (fetchDecode_of_operands_outside hpc hrow h), Nat.add_sub_of_le hpc.le]

end

/-- Settles O14: the instruction at `pc` is the one fetched. -/
theorem stepRunsTheInstructionAtPc : Obligations.StepRunsTheInstructionAtPc := by
  intro s i hr ho hw hi
  obtain ⟨rest, hd⟩ := hi.fetchDecode_eq ho
  exact step_of_wellFormed hr hd hw

/-- Settles O21: the instruction at `pc` is fetched, and validation refuses it before its meaning runs. -/
theorem invalidRegisterEndsTheRun : Obligations.InvalidRegisterEndsTheRun := by
  intro s i b hr ho hi hb
  obtain ⟨rest, hd⟩ := hi.fetchDecode_eq ho
  exact step_of_invalidReg hr hd hb

/-- Settles O20: a byte that is none of the 13 opcodes has no row. -/
theorem unrecognizedOpcodeHalts : Obligations.UnrecognizedOpcodeHalts :=
  fun _ => step_of_not_opcode

/-- Settles O19: by whether the last operand byte of the row is inside memory. -/
theorem operandFetch : Obligations.OperandFetch := by
  intro s row hr hpc hrow
  refine ⟨step_of_operands_outside hr hpc hrow, fun h hw => ?_⟩
  obtain ⟨rest, hd⟩ := fetchDecode_of_operands_inside hpc hrow h
  exact step_of_wellFormed hr hd hw

/-- Settles O16: by what a step can do; of the commits, HLT's alone ends the run. -/
theorem stepExactlyWhenRunning : Obligations.StepExactlyWhenRunning := by
  refine ⟨fun s => ⟨fun ⟨_, h⟩ => running_of_step h, step_next⟩, fun s t h => ?_⟩
  rcases step_cases h with ⟨i, rest, hd, hc⟩ | ⟨op, hd, rfl⟩ | ⟨c, -, rfl⟩
  · rcases hc.run_cases with hrun | ⟨rfl, hhlt, -⟩
    · exact .inl (hrun.trans (running_of_step h))
    · exact .inr (.inl ⟨hhlt, rest, hd⟩)
  · exact .inr (.inr (.inl ⟨rfl, op, hd⟩))
  · exact .inr (.inr (.inr ⟨c, rfl⟩))

/-- R26: a running step that leaves `pc` outside memory committed an instruction, and a sequential one ends inside memory or
just past its last cell. -/
theorem pc_of_step_outside {s t : State} (hs : s.Inv) (h : step s = .next t) (hrun : t.run = .running)
    (hout : s.cfg.memLen ≤ t.pc.toNat) :
    t.pc.toNat = s.cfg.memLen ∨ ∃ i rest, fetchDecode s = .instr i rest ∧ isSequential i = false := by
  rcases step_cases h with ⟨i, rest, hd, hc⟩ | ⟨op, -, rfl⟩ | ⟨c, -, rfl⟩
  · cases hi : isSequential i with
    | false => exact .inr ⟨i, rest, hd, hi⟩
    | true =>
      have hle : t.pc.toNat ≤ s.cfg.memLen := by
        rw [hc.pc_of_isSequential hi, pc_add_length_toNat hs hd]
        exact pc_add_length_le hd
      exact .inl (hle.antisymm hout)
  · cases hrun
  · cases hrun

/-- Settles O18: the byte fetched first, the fault where there is none, and what leaves `pc` there. -/
theorem opcodeFetch : Obligations.OpcodeFetch :=
  ⟨fun _ hr => ⟨head?_fetchBytes, step_of_pc_outside hr⟩, fun _ _ => pc_of_step_outside⟩

end Sys2Proof.Machine

/-! ### The cycle read by read (R90), and that the step through the decoder is the same -/

namespace Sys2Proof.Machine

/-- R94: the operand bytes that action 3b validates, those of kind `reg` in memory order. -/
def regBytes (kinds : List OperandKind) (bytes : List Byte) : List Byte :=
  ((kinds.zip bytes).filter fun p => decide (p.1 = .reg)).map Prod.snd

/-- R74: they are the register operands of the instruction the row makes. -/
theorem regOperands_assemble (o : Opc) (p : Op) (a b : Byte) :
    (assemble p a b).regOperands = regBytes (rowOf o p).kinds [a, b] := by
  cases p <;> rfl

/-- What validation answers for its first invalid register byte, if there is one (R94). -/
def validation (invalid : Option Byte) : Except Cause Unit :=
  invalid.elim (.ok ()) fun b => .error (.invalidRegister b)

/-- R94: validation reports the first register byte above 7, `opa` before `opb`. -/
theorem validate_eq (kinds : List OperandKind) (bytes : List Byte) :
    validate kinds bytes = validation ((regBytes kinds bytes).find? fun b => !isRegByte b) := by
  induction kinds, bytes using validate.induct with
  | case1 kinds b bytes ih =>
    have hcons : regBytes (.reg :: kinds) (b :: bytes) = b :: regBytes kinds bytes := rfl
    rw [validate, hcons]
    rcases regIndex_cases b with ⟨hb, he⟩ | ⟨hb, he⟩
    · rw [he, ok_bind, ih, List.find?_cons_of_neg (by simpa using (isRegByte_iff b).2 hb)]
    · rw [he, error_bind, List.find?_cons_of_pos (p := fun b => !isRegByte b) ((not_isRegByte_iff b).2 hb)]
      rfl
  | case2 kinds b bytes ih => exact ih
  | case3 kinds bytes hreg himm =>
    match kinds, bytes with
    | [], _ => rfl
    | .reg :: _, [] => rfl
    | .imm :: _, [] => rfl
    | .reg :: _, _ :: _ => exact (hreg _ _ _ rfl rfl).elim
    | .imm :: _, _ :: _ => exact (himm _ _ _ rfl rfl).elim

/-- The cycle's validation of a looked-up row's operands is that of the instruction they make. -/
theorem validate_eq_invalidReg? {o : Opc} {b : Byte} {row : Row} (h : lookup o b = some row) (x y : Byte) :
    validate row.kinds [x, y] = validation (assemble row.op x y).invalidReg? := by
  rw [validate_eq, Instr.invalidReg?, regOperands_assemble o, ← (lookup_cases h).1]

section
variable {s : State} {n : Nat}

/-- R52: a read inside memory, as the byte a claim reads. -/
theorem memRead_byte {a : Nat} (h : a < s.cfg.memLen) : memRead a s = .ok (s.byte a) := memRead_ok h

/-- R52, R183: a read just past the last cell. -/
theorem memRead_end {a : Nat} (h : a = s.cfg.memLen) :
    memRead a s = .error (.addressOutOfRange s.cfg.memLen) :=
  h ▸ memRead_error h.ge

/-- R93: the operand bytes of a row of `n` are the first `n` of the two cells after `pc`. -/
theorem fetchOperands_inside (h2 : n ≤ 2) (h : s.pc.toNat + n < s.cfg.memLen) :
    ∃ a b, fetchOperands n s = .ok (a, b) ∧
      [a, b].take n = [s.byte (s.pc.toNat + 1), s.byte (s.pc.toNat + 2)].take n := by
  match n, h2 with
  | 0, _ => exact ⟨0, 0, rfl, rfl⟩
  | 1, _ => exact ⟨_, 0, by simp only [fetchOperands, memRead_byte h, ok_bind, pure_eq_ok], rfl⟩
  | 2, _ =>
    have h1 : s.pc.toNat + 1 < s.cfg.memLen := by omega
    exact ⟨_, _, by simp only [fetchOperands, memRead_byte h1, memRead_byte h, ok_bind, pure_eq_ok], rfl⟩

/-- R93, R183: the first of them that memory does not have is at MEM_LEN. -/
theorem fetchOperands_outside (h2 : n ≤ 2) (hpc : s.pc.toNat < s.cfg.memLen)
    (h : s.cfg.memLen ≤ s.pc.toNat + n) : fetchOperands n s = .error (.addressOutOfRange s.cfg.memLen) := by
  match n, h2 with
  | 0, _ => omega
  | 1, _ =>
    have hend : s.pc.toNat + 1 = s.cfg.memLen := by omega
    simp only [fetchOperands, memRead_end hend, error_bind]
  | 2, _ =>
    rcases Nat.lt_or_ge (s.pc.toNat + 1) s.cfg.memLen with h1 | h1
    · have hend : s.pc.toNat + 2 = s.cfg.memLen := by omega
      simp only [fetchOperands, memRead_byte h1, memRead_end hend, ok_bind, error_bind]
    · have hend : s.pc.toNat + 1 = s.cfg.memLen := by omega
      simp only [fetchOperands, memRead_end hend, error_bind]

end

/-! The cycle's answers, action by action (R90). -/

section
variable {s : State}

theorem cycle_of_pc_outside (h : s.cfg.memLen ≤ s.pc.toNat) :
    cycle s = .next (s.raise (.addressOutOfRange s.pc.toNat)) := by
  simp only [cycle, memRead_error h]

variable (hpc : s.pc.toNat < s.cfg.memLen)
include hpc

theorem cycle_of_lookup_none (hrow : lookup s.cfg.opc (s.byte s.pc.toNat) = none) :
    cycle s = .next (s.unrecognized (s.byte s.pc.toNat)) := by
  simp only [cycle, memRead_byte hpc, hrow]

variable {row : Row} (hrow : lookup s.cfg.opc (s.byte s.pc.toNat) = some row)
include hrow

theorem cycle_of_operands_outside (h : s.cfg.memLen ≤ s.pc.toNat + row.kinds.length) :
    cycle s = .next (s.raise (.addressOutOfRange s.cfg.memLen)) := by
  simp only [cycle, memRead_byte hpc, hrow, fetchOperands_outside (kinds_length_le hrow) hpc h]

/-- With its operands in memory, the cycle validates and runs the instruction they make. -/
theorem cycle_of_operands_inside (h : s.pc.toNat + row.kinds.length < s.cfg.memLen) {i : Instr}
    (hi : assemble row.op (s.byte (s.pc.toNat + 1)) (s.byte (s.pc.toNat + 2)) = i) :
    (∀ b, i.invalidReg? = some b → cycle s = .next (s.raise (.invalidRegister b))) ∧
    (WellFormed i → cycle s = exec i s) := by
  obtain ⟨x, y, hxy, htake⟩ := fetchOperands_inside (kinds_length_le hrow) h
  have hasm : assemble row.op x y = i := (assemble_congr hrow htake).trans hi
  have hval : validate row.kinds [x, y] = validation i.invalidReg? := hasm ▸ validate_eq_invalidReg? hrow x y
  refine ⟨fun b hb => ?_, fun hw => ?_⟩
  · rw [hb] at hval
    simp only [cycle, memRead_byte hpc, hrow, hxy, hval, validation, Option.elim_some]
  · rw [invalidReg?_eq_none.2 hw] at hval
    simp only [cycle, memRead_byte hpc, hrow, hxy, hval, validation, Option.elim_none, hasm]

end

/-- Settles O15: check by check, in the order of R90, the step and the cycle give the same answer. -/
theorem stepIsTheSpecifiedCycle : Obligations.StepIsTheSpecifiedCycle := by
  intro s hr
  rcases Nat.lt_or_ge s.pc.toNat s.cfg.memLen with hpc | hpc
  · cases hrow : lookup s.cfg.opc (s.byte s.pc.toNat) with
    | none => rw [step_of_not_opcode hr hpc (lookup_eq_none.1 hrow), cycle_of_lookup_none hpc hrow]
    | some row =>
      rcases Nat.lt_or_ge (s.pc.toNat + row.kinds.length) s.cfg.memLen with h | h
      · obtain ⟨rest, hd⟩ := fetchDecode_of_operands_inside hpc hrow h
        obtain ⟨hinvalid, hvalid⟩ := cycle_of_operands_inside hpc hrow h rfl
        cases hb : (assemble row.op (s.byte (s.pc.toNat + 1)) (s.byte (s.pc.toNat + 2))).invalidReg? with
        | some b => rw [step_of_invalidReg hr hd hb, hinvalid b hb]
        | none =>
          have hw := invalidReg?_eq_none.1 hb
          rw [step_of_wellFormed hr hd hw, hvalid hw]
      · rw [step_of_operands_outside hr hpc hrow h, cycle_of_operands_outside hpc hrow h]
  · rw [step_of_pc_outside hr hpc, cycle_of_pc_outside hpc]

end Sys2Proof.Machine

/-! ### The results of LDI and PRN -/

namespace Sys2Proof.Machine

/-- Settles O31: the register byte is valid, so the write succeeds and its state, advanced by 3, is committed. -/
theorem ldiResult : Obligations.LdiResult := by
  intro s opa imm h
  rw [exec, execLdi, writeReg_ok h, ok_bind]
  rfl

/-- Settles O32: the register byte is valid, so the value read is emitted and the state, advanced by 2, is committed. -/
theorem prnResult : Obligations.PrnResult := by
  intro s opa h
  rw [exec, execPrn, readReg_ok h, ok_bind]
  rfl

end Sys2Proof.Machine

/-! ### The ALU's results, and those of ADD, MUL and CMP -/

namespace Sys2Proof.Machine

/-! R121: the exact integer result, reduced modulo 256 as a natural number. -/

theorem ofNat_mod_256 (n : Nat) : BitVec.ofNat 8 (n % 256) = BitVec.ofNat 8 n :=
  BitVec.eq_of_toNat_eq (by simp)

theorem aluAdd_eq_mod (a b : Byte) : aluAdd a b = BitVec.ofNat 8 ((a.toNat + b.toNat) % 256) := by
  rw [ofNat_mod_256, aluAdd, ← Int.natCast_add, wrap_natCast]

theorem aluMul_eq_mod (a b : Byte) : aluMul a b = BitVec.ofNat 8 ((a.toNat * b.toNat) % 256) := by
  rw [ofNat_mod_256, aluMul, ← Int.natCast_mul, wrap_natCast]

/-- A negative difference becomes 256 plus it. -/
theorem aluSub_eq_mod (a b : Byte) : aluSub a b = BitVec.ofNat 8 ((256 + a.toNat - b.toNat) % 256) := by
  have hb : b.toNat < 256 := b.isLt
  apply BitVec.eq_of_toNat_eq
  rw [ofNat_mod_256, aluSub_eq, BitVec.toNat_sub, BitVec.toNat_ofNat]
  omega

/-- R126, R30: each flag is one of the three unsigned orders of the operands. -/
theorem setFromComparison_eq (a b : Byte) :
    setFromComparison a b =
      ⟨decide (a.toNat < b.toNat), decide (b.toNat < a.toNat), decide (a.toNat = b.toNat)⟩ := by
  rcases Nat.lt_trichotomy a.toNat b.toNat with h | h | h
  · simp [setFromComparison, h, h.ne, h.not_gt]
  · simp [setFromComparison, h]
  · simp [setFromComparison, h, h.ne', h.not_gt]

/-- Settles O42: an operation writes its exact result modulo 256 to the first register, or all three flags. -/
theorem aluBlock : Obligations.AluBlock := by
  intro s a b
  refine ⟨?add, ?sub, ?mul, setFromComparison (s.reg a) (s.reg b), rfl, setFromComparison_exactlyOne _ _⟩
  case add => rw [← aluAdd_eq_mod]; rfl
  case sub => rw [← aluSub_eq_mod]; rfl
  case mul => rw [← aluMul_eq_mod]; rfl

/-- R94, R97: with both register bytes valid, the shared body of ADD, MUL and CMP commits what the ALU leaves. -/
theorem commit_aluInstr {opa opb : Byte} (ha : opa.toNat < 8) (hb : opb.toNat < 8) (op : AluOp) (s : State) :
    commit s (aluInstr op opa opb s) = .next ((alu op ⟨opa.toNat, ha⟩ ⟨opb.toNat, hb⟩ s).advance 3) := by
  rw [aluInstr, regIndex_ok ha, regIndex_ok hb]
  rfl

/-- Settles O33: what the ALU block says of ADD and MUL, advanced by 3, is committed. -/
theorem addMulResult : Obligations.AddMulResult := by
  intro s opa opb ha hb
  obtain ⟨hadd, -, hmul, -⟩ := aluBlock s ⟨opa.toNat, ha⟩ ⟨opb.toNat, hb⟩
  constructor
  · rw [exec, execAdd, commit_aluInstr ha hb, hadd]
    rfl
  · rw [exec, execMul, commit_aluInstr ha hb, hmul]
    rfl

/-- Settles O34: the comparison's flags are the unsigned order, and the state with them, advanced by 3, is committed. -/
theorem cmpResult : Obligations.CmpResult := by
  intro s opa opb ha hb
  rw [exec, execCmp, commit_aluInstr ha hb, alu, setFromComparison_eq]
  rfl

end Sys2Proof.Machine

/-! ### The results of PUSH, POP, CALL and RET, and their faults at the stack's bounds -/

namespace Sys2Proof.Machine

section
variable {s t u : State} {i : Instr}

/-- R11: an instruction commits one state. -/
theorem Commits.unique (ht : Commits s i t) (hu : Commits s i u) : t = u := by
  cases ht <;> cases hu <;> rfl

/-- R97: a state that can be committed is what the meaning answers, since no stop applies. -/
theorem exec_of_commits (h : Commits s i t) : exec i s = .next t := by
  rcases exec_answers s i with ⟨c, hc, -⟩ | ⟨-, u, he, hu⟩
  · cases hc.symm.trans ((stopCause?_of_wellFormed s h.wellFormed).trans h.stackStop?_eq_none)
  · rw [he, h.unique hu]

theorem exec_stackOverflow (hw : WellFormed i) (hi : storesToStack i = true) (h0 : s.sp = 0#8) :
    exec i s = .next (s.raise (.stackOverflow s.pc)) :=
  exec_of_stopCause? ((stopCause?_of_wellFormed s hw).trans (stackStop?_overflow hi h0))

theorem exec_stackUnderflow (hw : WellFormed i) (hi : loadsFromStack i = true) (h0 : s.sp.toNat = s.cfg.spInit) :
    exec i s = .next (s.raise (.stackUnderflow s.pc)) :=
  exec_of_stopCause? ((stopCause?_of_wellFormed s hw).trans (stackStop?_underflow hi h0))

/-- R28, U9: the cell a pop reads is inside memory. -/
theorem sp_lt_memLen (hs : s.Inv) (h0 : s.sp.toNat ≠ s.cfg.spInit) : s.sp.toNat < s.cfg.memLen :=
  (lt_of_le_of_ne hs.sp h0).trans_le hs.spInit_le_memLen

theorem pushAddr_eq_sub (h0 : s.sp ≠ 0#8) : pushAddr s = s.sp.toNat - 1 :=
  Nat.eq_sub_of_add_eq (pushAddr_eq h0)

/-- R54, R141: memory after a push. -/
theorem byte_pushed (hm : s.mem.wf = true) (v : Byte) (a : Nat) :
    (pushed v s).byte a = if a = pushAddr s then v else s.byte a :=
  Memory.read_write hm (pushAddr s) v a

end

/-- Settles O39: with its register valid, an instruction stops at its stack check before anything is written. -/
theorem stackBoundFaults : Obligations.StackBoundFaults := by
  intro s opa h
  have hpush : WellFormed (.push opa) := wellFormed_of_one rfl h
  have hcall : WellFormed (.call opa) := wellFormed_of_one rfl h
  have hpop : WellFormed (.pop opa) := wellFormed_of_one rfl h
  exact ⟨fun h0 => ⟨exec_stackOverflow hpush rfl h0, exec_stackOverflow hcall rfl h0⟩,
    fun h0 => ⟨exec_stackUnderflow hpop rfl h0, exec_stackUnderflow rfl rfl h0⟩⟩

/-- Settles O35: the push commits, and its new SP is the address it stores to. -/
theorem pushResult : Obligations.PushResult := by
  intro s opa h hs h0
  have haddr := pushAddr_eq_sub h0
  exact ⟨_, exec_push_eq h hs h0, haddr, haddr, byte_pushed hs.memWf _, rfl⟩

/-- Settles O37: the same push, of the return address, and then the jump. -/
theorem callResult : Obligations.CallResult := by
  intro s opa h hs h0
  have haddr := pushAddr_eq_sub h0
  have hcommit := Commits.call h h0 (pushAddr_lt_memLen hs h0)
  exact ⟨_, exec_of_commits hcommit, haddr, haddr, byte_pushed hs.memWf _, rfl⟩

/-- Settles O36: the pop commits, and SP below SP_INIT does not wrap. -/
theorem popResult : Obligations.PopResult := by
  intro s opa h hs h0
  exact ⟨_, exec_of_commits (.pop h h0 (sp_lt_memLen hs h0)), sp_add_one hs h0, rfl⟩

/-- Settles O38: the same pop, into `pc`. -/
theorem retResult : Obligations.RetResult := by
  intro s hs h0
  exact ⟨_, exec_of_commits (.ret h0 (sp_lt_memLen hs h0)), sp_add_one hs h0, rfl⟩

end Sys2Proof.Machine

/-! ### Stack balance (R145) -/

namespace Sys2Proof.Machine

section
variable {s t u v : State} {i j : Instr} {r : Byte}

/-! What a push and a pop commit: SP of all four instructions, and the byte moved by PUSH and POP. -/

theorem Commits.sp_of_storesToStack (h : Commits s i t) (hi : storesToStack i = true) : t.sp = s.sp - 1#8 := by
  cases h with
  | push _ _ _ => rfl
  | call _ _ _ => rfl
  | _ => cases hi

theorem Commits.sp_of_loadsFromStack (h : Commits s i t) (hi : loadsFromStack i = true) : t.sp = s.sp + 1#8 := by
  cases h with
  | pop _ _ _ => rfl
  | ret _ _ => rfl
  | _ => cases hi

/-- R145: a pop at the SP that a push left gives back the SP before the push. -/
theorem Commits.sp_balance (hpush : Commits s i t) (hi : storesToStack i = true) (hpop : Commits u j v)
    (hj : loadsFromStack j = true) (hsp : u.sp = t.sp) : v.sp = s.sp := by
  rw [hpop.sp_of_loadsFromStack hj, hsp, hpush.sp_of_storesToStack hi, BitVec.sub_add_cancel]

theorem Commits.sp_toNat_of_storesToStack (h : Commits s i t) (hi : storesToStack i = true) :
    t.sp.toNat + 1 = s.sp.toNat := by
  rw [h.sp_of_storesToStack hi, sp_sub_one (h.sp_ne_zero hi)]

theorem Commits.push_byte_sp (h : Commits s (.push r) t) (hr : r.toNat < 8) (hm : s.mem.wf = true) :
    t.byte t.sp.toNat = s.reg ⟨r.toNat, hr⟩ := by
  cases h with
  | push _ _ _ => exact (byte_pushed hm _ _).trans (if_pos rfl)

theorem Commits.pop_reg (h : Commits s (.pop r) t) (hr : r.toNat < 8) :
    t.reg ⟨r.toNat, hr⟩ = s.byte s.sp.toNat := by
  cases h with
  | pop _ _ _ => exact (State.reg_setReg ..).trans (if_pos rfl)

theorem Commits.mem_wf (h : Commits s i t) (hm : s.mem.wf = true) : t.mem.wf = true := by
  rcases h.mem_cases with he | ⟨-, v, he⟩
  · exact he ▸ hm
  · exact he ▸ Memory.wf_write hm _ v

/-! A PUSH or POP in a state `u` with the machine of `s` and SP no higher than its: the invariant of `u` itself is not
needed, which after a PUSH outside RUN does not hold (its `runFits`). -/

section
variable (hs : s.Inv) (hcfg : u.cfg = s.cfg)
include hs hcfg

theorem exists_commits_push (hr : r.toNat < 8) (h0 : u.sp ≠ 0#8) (hle : u.sp.toNat ≤ s.sp.toNat) :
    ∃ t, Commits u (.push r) t := by
  have haddr := pushAddr_eq h0
  have hsp := hs.sp
  have hinit := hs.spInit_le_memLen
  exact ⟨_, .push hr h0 (by rw [hcfg]; omega)⟩

theorem sp_ne_spInit_of_lt (hlt : u.sp.toNat < s.sp.toNat) : u.sp.toNat ≠ u.cfg.spInit := by
  have hsp := hs.sp
  rw [hcfg]; omega

theorem exists_commits_pop (hr : r.toNat < 8) (hlt : u.sp.toNat < s.sp.toNat) : ∃ t, Commits u (.pop r) t := by
  have hsp := hs.sp
  have hinit := hs.spInit_le_memLen
  exact ⟨_, .pop hr (sp_ne_spInit_of_lt hs hcfg hlt) (by rw [hcfg]; omega)⟩

end

end

/-- Settles O50: each POP reads the cell its PUSH stored to, which the inner pair leaves alone. -/
theorem stackBalance : Obligations.StackBalance := by
  intro s r1 r2 r3 r4 h1 h2 h3 h4 hs htwo
  obtain ⟨a, ha⟩ := exists_commits_push hs rfl h1 (by bv_omega) le_rfl
  have hasp := ha.sp_toNat_of_storesToStack rfl
  have ha0 : a.sp ≠ 0#8 := by bv_omega
  obtain ⟨b, hb⟩ := exists_commits_push hs ha.cfg_eq h2 ha0 (by omega)
  have hbsp := hb.sp_toNat_of_storesToStack rfl
  have hbcfg : b.cfg = s.cfg := hb.cfg_eq.trans ha.cfg_eq
  obtain ⟨c, hc⟩ := exists_commits_pop hs hbcfg h3 (by omega)
  have hcsp : c.sp = a.sp := hb.sp_balance rfl hc rfl rfl
  obtain ⟨d, hd⟩ := exists_commits_pop hs (hc.cfg_eq.trans hbcfg) h4 (by rw [hcsp]; omega)
  have hdsp : d.sp = s.sp := ha.sp_balance rfl hd rfl hcsp
  have hawf := ha.mem_wf hs.memWf
  have hinner : c.reg ⟨r3.toNat, h3⟩ = s.reg ⟨r2.toNat, h2⟩ :=
    calc c.reg ⟨r3.toNat, h3⟩ = b.byte b.sp.toNat := hc.pop_reg h3
      _ = a.reg ⟨r2.toNat, h2⟩ := hb.push_byte_sp h2 hawf
      _ = s.reg ⟨r2.toNat, h2⟩ := ha.reg_eq nofun
  have hcell : a.sp.toNat ≠ pushAddr a := by
    have haddr := pushAddr_eq ha0
    omega
  have houter : d.reg ⟨r4.toNat, h4⟩ = s.reg ⟨r1.toNat, h1⟩ :=
    calc d.reg ⟨r4.toNat, h4⟩ = c.byte c.sp.toNat := hd.pop_reg h4
      _ = c.byte a.sp.toNat := by rw [hcsp]
      _ = b.byte a.sp.toNat := hc.byte_eq (hb.mem_wf hawf) nofun
      _ = a.byte a.sp.toNat := hb.byte_eq hawf fun _ => hcell
      _ = s.reg ⟨r1.toNat, h1⟩ := ha.push_byte_sp h1 hs.memWf
  have hkept (hne : r3 ≠ r4) : d.reg ⟨r3.toNat, h3⟩ = c.reg ⟨r3.toNat, h3⟩ := by
    refine hd.reg_eq fun x hx he => hne ?_
    cases hx
    exact (BitVec.eq_of_toNat_eq he).symm
  exact ⟨a, b, c, d, exec_of_commits ha, exec_of_commits hb, exec_of_commits hc, exec_of_commits hd, hinner, houter,
    fun hne => (hkept hne).trans hinner, hdsp⟩

/-- Settles O51: the cell at the CALL's SP still holds the return address, and the RET gives SP back. -/
theorem callReturnBalance : Obligations.CallReturnBalance := by
  intro s opa h hs h0
  obtain ⟨a, ha⟩ : ∃ a, Commits s (.call opa) a := ⟨_, .call h h0 (pushAddr_lt_memLen hs h0)⟩
  refine ⟨a, exec_of_commits ha, fun b hb hcfg hsp hbyte => ?_⟩
  have hasp := ha.sp_toNat_of_storesToStack rfl
  have hinit : b.sp.toNat ≠ b.cfg.spInit := sp_ne_spInit_of_lt hs hcfg (by rw [hsp]; omega)
  have hret := Commits.ret hinit (sp_lt_memLen hb hinit)
  refine ⟨_, exec_of_commits hret, ?_, ha.sp_balance rfl hret rfl hsp⟩
  calc b.byte b.sp.toNat = b.byte a.sp.toNat := by rw [hsp]
    _ = a.byte a.sp.toNat := hbyte
    _ = returnAddr s := ha.call_byte_sp hs.memWf

end Sys2Proof.Machine

/-! ### The results of JMP, JEQ, JNE and HLT -/

namespace Sys2Proof.Machine

/-- R162, R24: JNE's choice of the next PC, by EQUAL as JEQ's is: the two arms the other way round. -/
theorem ite_not_isEqual (s : State) (target next : Byte) :
    (if (!isEqual s) = true then target else next) = if s.fl.eq = true then next else target := by
  unfold isEqual
  cases s.fl.eq with
  | true => rfl
  | false => rfl

/-- Settles O40: each jump commits, with the next PC its choice gives. -/
theorem jumpResults : Obligations.JumpResults := by
  intro s opa h
  have hjne : exec (.jne opa) s = .next (s.setPc (if s.fl.eq = true then s.pc + 2 else s.reg ⟨opa.toNat, h⟩)) := by
    rw [exec_of_commits (.jne h), ite_not_isEqual]
    rfl
  exact ⟨exec_of_commits (.jmp h), exec_of_commits (.jeq h), hjne⟩

/-- Settles O41: HLT commits a state that does not run, and only a running state has a step. -/
theorem hltResult : Obligations.HltResult := by
  intro s
  exact ⟨_, exec_of_commits .hlt, rfl, fun _ hstep => nomatch running_of_step hstep⟩

end Sys2Proof.Machine

/-! ### Faults: which one a step or a meaning ends the run with -/

namespace Sys2Proof.Machine

section
variable {s t : State} {i : Instr} {c : Cause}

/-- R193: what an instruction commits in RUN is no fault: it leaves the run state, or it is HLT's halt. -/
theorem Commits.run_ne_fault (h : Commits s i t) (hr : s.run = .running) (c : Cause) : t.run ≠ .fault c := by
  rcases h.run_cases with hrun | ⟨-, hrun, -⟩
  · rw [hrun, hr]; exact nofun
  · rw [hrun]; exact nofun

/-- R55, R140: with SP in `0..SP_INIT` a stack access inside its bounds meets a cell, so it stops only at a bound. -/
theorem State.Inv.stackStop?_cases (hs : s.Inv) (h : stackStop? s i = some c) :
    (storesToStack i = true ∧ s.sp = 0#8 ∧ c = .stackOverflow s.pc) ∨
    (loadsFromStack i = true ∧ s.sp.toNat = s.cfg.spInit ∧ c = .stackUnderflow s.pc) := by
  rcases Machine.stackStop?_cases h with hover | ⟨-, h0, hm, -⟩ | hunder | ⟨-, h0, hm, -⟩
  · exact .inl hover
  · exact absurd (pushAddr_lt_memLen hs h0) hm.not_gt
  · exact .inr hunder
  · exact absurd (sp_lt_memLen hs h0) hm.not_gt

/-- A meaning that ends a running state's run in a fault stopped with that fault's cause. -/
theorem stopCause?_of_exec_fault (hr : s.run = .running) (h : exec i s = .next t) (ht : t.run = .fault c) :
    stopCause? s i = some c := by
  rcases exec_cases h with ⟨d, hd, rfl⟩ | ⟨-, hc⟩
  · cases ht; exact hd
  · exact absurd ht (hc.run_ne_fault hr c)

end

/-- Settles O23: of the three things a step can do, only taking a fault ends in one, and it changes `run` alone. -/
theorem faultsArePrecise : Obligations.FaultsArePrecise := by
  intro s t c h ht
  rcases step_cases h with ⟨i, rest, -, hc⟩ | ⟨op, -, rfl⟩ | ⟨d, -, rfl⟩
  · exact absurd ht (hc.run_ne_fault (running_of_step h) c)
  · exact nomatch ht
  · cases ht; rfl

/-- Settles O24: the fault is the meaning's stop, by its register check or by its stack access. -/
theorem faultsOfEachInstruction : Obligations.FaultsOfEachInstruction := by
  intro s t i c hs hr h ht
  exact (stopCause?_cases (stopCause?_of_exec_fault hr h ht)).imp_right hs.stackStop?_cases

end Sys2Proof.Machine

/-! ### The trace -/

namespace Sys2Proof.Machine

/-- R198: the trace's byte `k` is the view of memory at `pc + k`. -/
theorem getElem?_trace_bytes (s : State) {k : Nat} (hk : k < 3) :
    (trace s).bytes[k]? = some (cellView (s.pc.toNat + k) s) := by
  match k, hk with
  | 0, _ => rfl
  | 1, _ => rfl
  | 2, _ => rfl

/-- Settles O52: a view of memory shows the byte of an existing cell and nothing elsewhere. -/
theorem traceShowsExistingCells : Obligations.TraceShowsExistingCells :=
  fun s _ hk => ⟨rfl, rfl, getElem?_trace_bytes s hk⟩

end Sys2Proof.Machine

/-! ### The launch: the image is placed from address 0, or refused at the end of memory -/

namespace Sys2Proof.Machine

/-- What placing bytes leaves: the bytes from `a` up, and every other cell as it was (R53). -/
theorem Memory.read_placeBytes {n : Nat} {bs : List Byte} {a : Nat} {m : Memory} (hm : m.wf = true)
    (h : a + bs.length ≤ n) (q : Nat) :
    (placeBytes n bs a m).read q = if a ≤ q then bs.getD (q - a) (m.read q) else m.read q := by
  induction bs generalizing a m with
  | nil => exact (ite_self _).symm
  | cons b rest ih =>
    rw [List.length_cons] at h
    have ha : a < n := by omega
    rw [placeBytes, if_pos ha, ih (Memory.wf_write hm a b) (by omega), Memory.read_write hm]
    rcases Nat.lt_trichotomy q a with hq | rfl | hq
    · rw [if_neg (by omega), if_neg (by omega), if_neg (by omega)]
    · rw [if_neg (by omega), if_pos rfl, if_pos le_rfl, Nat.sub_self, List.getD_cons_zero]
    · have hsub : q - a = q - (a + 1) + 1 := by omega
      rw [if_pos (by omega), if_neg (by omega), if_pos (by omega), hsub, List.getD_cons_succ]

section
variable {s : State} {a : Nat}

/-- R215: the first byte of an image, inside memory, is stored and the loader goes on with the next. -/
theorem hostLoadFrom_cons (hr : s.run = .load) (ha : a < s.cfg.memLen) (b : Byte) (rest : List Byte) :
    hostLoadFrom a (b :: rest) s = hostLoadFrom (a + 1) rest (s.setMem (s.mem.write a b)) := by
  rw [hostLoadFrom, hostLoad_next hr ha]

/-- R215: an image that fits from `a` up is placed there, and nothing but memory changes. -/
theorem hostLoadFrom_of_fits {image : List Byte} (hr : s.run = .load) (h : a + image.length ≤ s.cfg.memLen) :
    hostLoadFrom a image s = .next (s.setMem (placeBytes s.cfg.memLen image a s.mem)) := by
  induction image generalizing a s with
  | nil => rfl
  | cons b rest ih =>
    rw [List.length_cons] at h
    have ha : a < s.cfg.memLen := by omega
    rw [hostLoadFrom_cons hr ha, placeBytes, if_pos ha]
    exact ih (s := s.setMem (s.mem.write a b)) hr (by rw [State.setMem_cfg]; omega)

/-- R65, R215: an image that passes the end of memory is refused at its first byte outside. -/
theorem hostLoadFrom_of_too_long {image : List Byte} (hr : s.run = .load) (ha : a ≤ s.cfg.memLen)
    (h : s.cfg.memLen < a + image.length) :
    hostLoadFrom a image s = .refused (.loadOutOfRange s.cfg.memLen) := by
  induction image generalizing a s with
  | nil => exact absurd h ha.not_gt
  | cons b rest ih =>
    rcases ha.lt_or_eq with hlt | rfl
    · rw [List.length_cons] at h
      rw [hostLoadFrom_cons hr hlt]
      exact ih (s := s.setMem (s.mem.write a b)) hr hlt (by rw [State.setMem_cfg]; omega)
    · rw [hostLoadFrom, hostLoad_refused_of_le hr le_rfl]

end

/-- The state that the launch of `image` leaves (R213). -/
def launched (image : List Byte) (c : Config) : State :=
  ((State.resetWith c).setMem (placeBytes c.memLen image 0 [])).setRun .running

theorem launch_of_fits {image : List Byte} {s : State} (h : image.length ≤ s.cfg.memLen) :
    launch image s = .next (launched image s.cfg) := by
  have hload := hostLoadFrom_of_fits (s := hostReset s) (a := 0) rfl (by rwa [Nat.zero_add])
  rw [launch, hload]
  exact hostStart_next rfl

theorem byte_launched {image : List Byte} {c : Config} (h : image.length ≤ c.memLen) (a : Nat) :
    (launched image c).byte a = image.getD a 0 :=
  (Memory.read_placeBytes (m := []) rfl (by rwa [Nat.zero_add]) a).trans (if_pos (Nat.zero_le a))

/-- Settles O7: the state the launch leaves, its bytes, and the fetch at the reset value of `pc`. -/
theorem launchState : Obligations.LaunchState := by
  intro image s h
  exact ⟨launched image s.cfg, launch_of_fits h, byte_launched h, rfl, fun hpos => ⟨rfl, head?_fetchBytes hpos⟩⟩

/-- Settles O8: the loads up to the end of memory are done and the next is refused, so `start` is not reached. -/
theorem imageTooLongIsRefused : Obligations.ImageTooLongIsRefused := by
  intro image s h
  have hload := hostLoadFrom_of_too_long (s := hostReset s) (a := 0) rfl (Nat.zero_le _) (by rwa [Nat.zero_add])
  rw [launch, hload]
  rfl

end Sys2Proof.Machine

/-! ### The text record of a byte -/

namespace Sys2Proof.Machine

/-- The character of a binary digit (R216). -/
def binaryDigit (d : Bool) : Char := if d then '1' else '0'

/-- The last `n` binary digits of `x`, the most significant first (R82). -/
def binaryDigits (n x : Nat) : List Char := (List.range n).map fun k => binaryDigit (x.testBit (n - 1 - k))

theorem binaryDigits_succ (n x : Nat) :
    binaryDigits (n + 1) x = binaryDigit (x.testBit n) :: binaryDigits n x := by
  rw [binaryDigits, List.range_succ_eq_map, List.map_cons, List.map_map]
  refine congrArg (_ :: ·) (List.map_congr_left fun k _ => ?_)
  have hk : n + 1 - 1 - (k + 1) = n - 1 - k := by omega
  rw [Function.comp_apply, Nat.succ_eq_add_one, hk]

@[simp] theorem length_binaryDigits (n x : Nat) : (binaryDigits n x).length = n := by
  rw [binaryDigits, List.length_map, List.length_range]

theorem binaryValue_cons (v : Nat) (d : Bool) (rest : List Char) :
    binaryValue v (binaryDigit d :: rest) = binaryValue (2 * v + d.toNat) rest := by
  cases d <;> rfl

/-- Reading `n` digits shifts the value read before them by `n` places. -/
theorem binaryValue_binaryDigits (v n x : Nat) : binaryValue v (binaryDigits n x) = some (2 ^ n * v + x % 2 ^ n) := by
  induction n generalizing v with
  | zero => simp [binaryDigits, binaryValue, Nat.mod_one]
  | succ n ih =>
    rw [binaryDigits_succ, binaryValue_cons, ih, Nat.mod_pow_succ, ← Nat.toNat_testBit]
    exact congrArg some (by ring)

/-- A line that begins with a digit is neither blank nor a comment (R216). -/
theorem readRecord_digit_cons {d : Bool} {rest : List Char} {v : Nat} (hlen : rest.length = 7)
    (hv : binaryValue 0 (binaryDigit d :: rest) = some v) :
    readRecord (binaryDigit d :: rest) = .byte (BitVec.ofNat 8 v) := by
  have hread : ¬ ((binaryDigit d :: rest).all Char.isWhitespace ||
      (binaryDigit d :: rest).head? == some '#') = true := by
    cases d <;> simp [binaryDigit, Char.isWhitespace]
  rw [readRecord, if_neg hread, if_pos (by rw [List.length_cons, hlen]), hv]

theorem readRecord_binaryDigits (x : Nat) : readRecord (binaryDigits 8 x) = .byte (BitVec.ofNat 8 (x % 2 ^ 8)) := by
  have hv := binaryValue_binaryDigits 0 8 x
  rw [Nat.mul_zero, Nat.zero_add, binaryDigits_succ] at hv
  rw [binaryDigits_succ]
  exact readRecord_digit_cons (length_binaryDigits 7 x) hv

/-- Settles O53: the record's characters are the byte's eight digits, and their value is the byte. -/
theorem recordOfBinaryDigits : Obligations.RecordOfBinaryDigits := by
  intro b
  have hb : BitVec.ofNat 8 (b.toNat % 2 ^ 8) = b := by
    rw [Nat.mod_eq_of_lt b.isLt, BitVec.ofNat_toNat, BitVec.setWidth_eq]
  exact (readRecord_binaryDigits b.toNat).trans (congrArg Record.byte hb)

end Sys2Proof.Machine
